-- ==== Sys2Proof/Word.lean ====
section
/-!
DEFINITION. The machine's words. Every register, memory cell, immediate and address held in a register is one 8-bit unsigned
byte (spec/00_scope.md R7 `XLEN`, R9; spec/10_state.md R22).
-/
namespace Sys2Proof

/-- A byte: a register's content, a memory cell, an immediate (00_scope.md R7 `XLEN` = 8, R9). -/
abbrev Byte := BitVec 8

/-- The flags register `fl`, a 3-bit record: bit 0 Equal, bit 1 Greater, bit 2 Less (10_state.md R31). -/
abbrev Flags := BitVec 3

/-- A register index, 0 to 7 (00_scope.md R7 `NREG`; 10_state.md R21). -/
abbrev RegIdx := Fin 8

/-- The operand count `cnt` of a first byte, 0 to 3 (30_encoding.md R70, R80): it is added to the program counter and never read as
a word. -/
abbrev Count := Fin 4

/-- The dispatch key of a first byte, 6 opaque bits (30_encoding.md R70, R71). -/
abbrev Key := BitVec 6

end Sys2Proof
end

