-- ==== Sys2Proof/Syntax.lean ====
section
/-!
DEFINITION. The thirteen instructions (spec/00_scope.md R2; spec/30_encoding.md R74), one constructor for each row of
spec/opcode_table.json, in the table's order.

Every instruction carries `cnt`, bits 7:6 of the first byte it was decoded from: an alias is an instruction of its own, since the
sequential advance uses the byte's own count (30_encoding.md R79, 40_engine.md R96). Register operands are indices already masked to
0..7 (R77), so a term of this type has no illegal operand.
-/
namespace Sys2Proof

/-- An instruction with its operands decoded. -/
inductive Instr where
  | hlt (cnt : Count)
  | ldi (cnt : Count) (r : RegIdx) (imm : Byte)
  | push (cnt : Count) (r : RegIdx)
  | pop (cnt : Count) (r : RegIdx)
  | prn (cnt : Count) (r : RegIdx)
  | call (cnt : Count) (r : RegIdx)
  | ret (cnt : Count)
  | jmp (cnt : Count) (r : RegIdx)
  | jeq (cnt : Count) (r : RegIdx)
  | jne (cnt : Count) (r : RegIdx)
  | cmp (cnt : Count) (a : RegIdx) (b : RegIdx)
  | add (cnt : Count) (a : RegIdx) (b : RegIdx)
  | mul (cnt : Count)
deriving DecidableEq, Repr

/-- The count field of the instruction's first byte. -/
def Instr.cnt : Instr → Count
  | .hlt c | .ldi c _ _ | .push c _ | .pop c _ | .prn c _ | .call c _ | .ret c | .jmp c _ | .jeq c _ | .jne c _
  | .cmp c _ _ | .add c _ _ | .mul c => c

/-- The same instruction under another count field: the alias of 30_encoding.md R79. -/
def Instr.withCnt (n : Count) : Instr → Instr
  | .hlt _ => .hlt n
  | .ldi _ r v => .ldi n r v
  | .push _ r => .push n r
  | .pop _ r => .pop n r
  | .prn _ r => .prn n r
  | .call _ r => .call n r
  | .ret _ => .ret n
  | .jmp _ r => .jmp n r
  | .jeq _ r => .jeq n r
  | .jne _ r => .jne n r
  | .cmp _ a b => .cmp n a b
  | .add _ a b => .add n a b
  | .mul _ => .mul n

end Sys2Proof
end

