-- ==== Sys2Proof/Decode.lean ====
section
/-!
DEFINITION. The decoder, total on any bytes and rejecting by name, and after it the encoder, both written from the tables of
spec/30_encoding.md (R70 the first byte, R72 the formats, R74 the opcode map, R76 the immediate, R77 the selectors).
-/
namespace Sys2Proof

/-! ### Fields of the bytes -/

/-- `key = b[5:0]` (30_encoding.md R70). -/
def keyOf (b : Byte) : Key := b.extractLsb' 0 6

/-- `cnt = b[7:6]` (30_encoding.md R70). -/
def cntOf (b : Byte) : Count := ⟨(b.extractLsb' 6 2).toNat, (b.extractLsb' 6 2).isLt⟩

/-- `ridx(o) = o[2:0]`; bits 7:3 are ignored (30_encoding.md R77). -/
def ridx (o : Byte) : RegIdx := ⟨(o.extractLsb' 0 3).toNat, (o.extractLsb' 0 3).isLt⟩

/-! ### The opcode map -/

/-- The thirteen names of the opcode table, without operands (30_encoding.md R74). -/
inductive Opcode where
  | hlt | ldi | push | pop | prn | call | ret | jmp | jeq | jne | cmp | add | mul
deriving DecidableEq, Repr

/-- The handler an instruction belongs to. -/
def Instr.opcode : Instr → Opcode
  | .hlt _ => .hlt
  | .ldi _ _ _ => .ldi
  | .push _ _ => .push
  | .pop _ _ => .pop
  | .prn _ _ => .prn
  | .call _ _ => .call
  | .ret _ => .ret
  | .jmp _ _ => .jmp
  | .jeq _ _ => .jeq
  | .jne _ _ => .jne
  | .cmp _ _ _ => .cmp
  | .add _ _ _ => .add
  | .mul _ => .mul

/-- The "key" column of 30_encoding.md R74. -/
def Opcode.key : Opcode → Key
  | .hlt => 0x01#6
  | .ldi => 0x02#6
  | .push => 0x05#6
  | .pop => 0x06#6
  | .prn => 0x07#6
  | .call => 0x10#6
  | .ret => 0x11#6
  | .jmp => 0x14#6
  | .jeq => 0x15#6
  | .jne => 0x16#6
  | .cmp => 0x27#6
  | .add => 0x20#6
  | .mul => 0x22#6

/-- The rows of the opcode map, in the source's order (30_encoding.md R74). -/
def Opcode.all : List Opcode := [.hlt, .ldi, .push, .pop, .prn, .call, .ret, .jmp, .jeq, .jne, .cmp, .add, .mul]

/-- The handler registered for a key, if any: the key is matched whole (30_encoding.md R71, R79, R81). -/
def decodeKey (k : Key) : Option Opcode := Opcode.all.find? (fun op => op.key == k)

/-! ### Decoding -/

/-- Why a byte string is no instruction. -/
inductive DecodeError where
  /-- there is no first byte -/
  | noBytes
  /-- the key of the first byte has no registered handler (30_encoding.md R81) -/
  | illegalKey (b : Byte)
  /-- the operand byte at this offset from the first byte, which the handler reads, is missing (40_engine.md R94) -/
  | operandMissing (offset : Nat)
deriving DecidableEq, Repr

/-- Format F1: one operand byte is read (30_encoding.md R72). -/
def withOneOperand (rest : List Byte) (f : Byte → Instr) : Except DecodeError Instr :=
  match rest with
  | [] => .error (.operandMissing 1)
  | o1 :: _ => .ok (f o1)

/-- Format F2: two operand bytes are read, in ascending order (30_encoding.md R72). -/
def withTwoOperands (rest : List Byte) (f : Byte → Byte → Instr) : Except DecodeError Instr :=
  match rest with
  | [] => .error (.operandMissing 1)
  | [_] => .error (.operandMissing 2)
  | o1 :: o2 :: _ => .ok (f o1 o2)

/-- The operands of each handler, read from the bytes after the first one: the nominal number, whatever `cnt` says
(30_encoding.md R72, R73; 40_engine.md R94). MUL reads none (R75). -/
def decodeOperands (op : Opcode) (cnt : Count) (rest : List Byte) : Except DecodeError Instr :=
  match op with
  | .hlt => .ok (.hlt cnt)
  | .ldi => withTwoOperands rest fun o1 o2 => .ldi cnt (ridx o1) o2
  | .push => withOneOperand rest fun o1 => .push cnt (ridx o1)
  | .pop => withOneOperand rest fun o1 => .pop cnt (ridx o1)
  | .prn => withOneOperand rest fun o1 => .prn cnt (ridx o1)
  | .call => withOneOperand rest fun o1 => .call cnt (ridx o1)
  | .ret => .ok (.ret cnt)
  | .jmp => withOneOperand rest fun o1 => .jmp cnt (ridx o1)
  | .jeq => withOneOperand rest fun o1 => .jeq cnt (ridx o1)
  | .jne => withOneOperand rest fun o1 => .jne cnt (ridx o1)
  | .cmp => withTwoOperands rest fun o1 o2 => .cmp cnt (ridx o1) (ridx o2)
  | .add => withTwoOperands rest fun o1 o2 => .add cnt (ridx o1) (ridx o2)
  | .mul => .ok (.mul cnt)

/-- The instruction that a string of bytes begins with. The bytes after those its handler reads are not looked at. -/
def decode (bytes : List Byte) : Except DecodeError Instr :=
  match bytes with
  | [] => .error .noBytes
  | b :: rest =>
    match decodeKey (keyOf b) with
    | none => .error (.illegalKey b)
    | some op => decodeOperands op (cntOf b) rest

/-! ### Encoding -/

/-- The first byte `{cnt, key}` (30_encoding.md R70). -/
def firstByte (cnt : Count) (op : Opcode) : Byte := (BitVec.ofFin cnt : BitVec 2) ++ op.key

/-- A register selector byte with its ignored bits 7:3 zero, the canonical one (30_encoding.md R77). -/
def selector (r : RegIdx) : Byte := BitVec.ofNat 8 r.val

/-- The operand bytes of an instruction. MUL's skipped bytes, which no handler reads, are written as an assembler writes them,
`00 01` (30_encoding.md R75), as many of them as `cnt` skips. -/
def Instr.operandBytes : Instr → List Byte
  | .hlt _ | .ret _ => []
  | .ldi _ r imm => [selector r, imm]
  | .push _ r | .pop _ r | .prn _ r | .call _ r | .jmp _ r | .jeq _ r | .jne _ r => [selector r]
  | .cmp _ a b | .add _ a b => [selector a, selector b]
  | .mul c => [0x00, 0x01, 0x00].take c.val

/-- The bytes of an instruction, first byte first. -/
def encode (i : Instr) : List Byte := firstByte i.cnt i.opcode :: i.operandBytes

/-! ### The words of the opcode table -/

/-- Byte `k` of an instruction given as a number whose bit 0 is the least significant bit of the first byte; the bits from `nbits` on
are 0. -/
def tableByte (nbits w k : Nat) : Byte := BitVec.ofNat 8 (w % 2 ^ nbits / 2 ^ (8 * k))

/-- The first three bytes of such an instruction, lowest address first: no handler reads further (30_encoding.md R72). -/
def tableBytes (nbits w : Nat) : List Byte := [tableByte nbits w 0, tableByte nbits w 1, tableByte nbits w 2]

/-- The instruction the decoder reads from a word of the opcode table. -/
def decodeTableWord (nbits w : Nat) : Option Instr :=
  match decode (tableBytes nbits w) with
  | .ok i => some i
  | .error _ => none

end Sys2Proof
end

