-- ==== Sys2Proof/Config.lean ====
section
/-!
DEFINITION. The implementation parameters of spec/00_scope.md R7 that are not widths. The one parameter the spec leaves as an
argument is `MEM_CELLS`, with exactly two legal values (20_memory.md R51); the model covers both.
There is no free value: the spec decides every point its source leaves open (92_eei_decisions.md).
-/
namespace Sys2Proof

/-- The legal values of the parameter `MEM_CELLS` (00_scope.md R7, 20_memory.md R51, decision D2). -/
inductive MemCells where
  /-- 255 cells, 0x00 to 0xFE: the spec's value for this hardware -/
  | cells255
  /-- 256 cells, 0x00 to 0xFF: the other legal value -/
  | cells256
deriving DecidableEq, Repr

/-- The number of cells as an integer, the `MEM_CELLS` of the rules' pseudocode. -/
def MemCells.count : MemCells → Nat
  | .cells255 => 255
  | .cells256 => 256

/-- `SP_INDEX`: register 7 is the stack pointer (00_scope.md R7, 10_state.md R23). -/
def spIndex : RegIdx := 7

end Sys2Proof
end

