-- ==== Sys2Proof/Machine/Memory.lean ====
section
/-!
DEFINITION. The contents of memory as plain data: a list of cells in one canonical form (addresses strictly rising, no cell equal to
what an unlisted address reads as). Which addresses exist is the business of `State.memRead` and `State.memWrite` in
Sys2Proof/Machine/Ops.lean (spec/20_memory.md R52); here an address is any number.
-/
namespace Sys2Proof.Machine

/-- The listed cells of the one flat memory (20_memory.md R50). -/
abbrev Memory := List Host.Cell

/-- What an unlisted cell holds: at reset every cell outside the program is 0x00 (20_memory.md R50; 70_reset_and_hazards.md R182, the
spec's decision D11). -/
def Memory.unlisted : Byte := 0x00

/-- The byte in a cell: the byte most recently written, or the reset value (20_memory.md R57). -/
def Memory.read (m : Memory) (a : Nat) : Byte :=
  match m with
  | [] => Memory.unlisted
  | c :: rest => if c.1 = a then c.2 else Memory.read rest a

/-- Drop a cell from the listing. -/
def Memory.erase (m : Memory) (a : Nat) : Memory := m.filter (fun c => c.1 != a)

/-- List a cell at its place among rising addresses. -/
def Memory.insert (m : Memory) (a : Nat) (v : Byte) : Memory :=
  match m with
  | [] => [(a, v)]
  | c :: rest => if a < c.1 then (a, v) :: c :: rest else c :: Memory.insert rest a v

/-- Cell `a` becomes the byte `v`. -/
def Memory.write (m : Memory) (a : Nat) (v : Byte) : Memory :=
  if v = Memory.unlisted then m.erase a else (m.erase a).insert a v

/-- Bytes deposited at ascending addresses from `a` (70_reset_and_hazards.md R183). -/
def Memory.writeBytes (m : Memory) (a : Nat) : List Byte → Memory
  | [] => m
  | v :: vs => Memory.writeBytes (m.write a v) (a + 1) vs

/-- The canonical form, so that equal memories are equal data. -/
abbrev Memory.wf (m : Memory) : Prop :=
  m.Pairwise (fun c d => c.1 < d.1) ∧ ∀ c ∈ m, c.2 ≠ Memory.unlisted

end Sys2Proof.Machine
end

