-- ==== Sys2Proof/Machine/Status.lean ====
section
/-!
DEFINITION. The shapes of `status` (spec/10_state.md R36) and the stop conditions it can record (spec/60_exceptions.md R150).
-/
namespace Sys2Proof.Machine

/-- The operations the ALU can be asked for: the three it supports (45_alu.md R135), and any other name, which it does not implement
(R141). No handler asks for another name. -/
inductive AluOp where
  | cmp
  | add
  | mul
  /-- an operation the ALU does not implement, by its name -/
  | other (name : String)
deriving DecidableEq, Repr

/-- The stop conditions with what each records (60_exceptions.md R150, R155). -/
inductive StopCondition where
  /-- code 1: the byte `b` fetched at `pc` has no registered handler (R151) -/
  | illegalInstruction (pc : Nat) (b : Byte)
  /-- code 2: the ALU does not implement the operation; no step produces it (R152, 45_alu.md R141) -/
  | unsupportedALUOperation (op : AluOp)
  /-- code 3: no program bytes were deposited; raised by the deposit interface, never by a step (R153) -/
  | programLoadFailure
  /-- code 4: an access to an address that names no cell, or a return address above 0xFF (R154) -/
  | addressOutOfRange (a : Nat)
deriving DecidableEq, Repr

/-- The numeric codes of 60_exceptions.md R150. -/
def StopCondition.code : StopCondition → Nat
  | .illegalInstruction _ _ => 1
  | .unsupportedALUOperation _ => 2
  | .programLoadFailure => 3
  | .addressOutOfRange _ => 4

/-- Whether the machine runs, has halted normally, or has stopped with an error (10_state.md R36). -/
inductive Status where
  | running
  | halted
  | error (c : StopCondition)
deriving DecidableEq, Repr

end Sys2Proof.Machine
end

