-- ==== Sys2Proof/Machine/ResetValues.lean ====
section
/-!
DEFINITION. The reset value of every piece of state but memory and `out` (spec/70_reset_and_hazards.md R181). What an unlisted cell of
memory reads as is `Memory.unlisted`.
-/
namespace Sys2Proof.Machine

/-- R0 to R6: 0x00, decided by the spec (R181, D11; log 6). -/
def resetReg : Byte := 0x00

/-- SP: 0xF4, stated by the source (R181; 10_state.md R24). -/
def resetSp : Byte := 0xF4

/-- The program counter: 0, the address the program is deposited from (R181, D4; log 7). -/
def resetPc : Nat := 0

/-- The flags: 0b000, decided by the spec (R181, D10; log 6). -/
def resetFl : Flags := 0b000

/-- The parameter `MEM_CELLS` of this hardware: 255 (00_scope.md R7, D2; log 1). -/
def resetMemCells : MemCells := .cells255

/-- The status when no program byte has been deposited (R181, R185; log 2). -/
def resetStatusUnloaded : Status := .error .programLoadFailure

/-- The status when at least one program byte has been deposited (R181, R186). -/
def resetStatusLoaded : Status := .running

end Sys2Proof.Machine
end

