-- ==== Sys2Proof/Machine/State.lean ====
section
/-!
DEFINITION. The state of the machine as plain data: the tuple of spec/10_state.md R20, and the implementation parameter the machine was
built with (spec/00_scope.md R7), which no step writes. Beside it the two ways `step` and the deposit can answer without a next state.
-/
namespace Sys2Proof.Machine

/-- The architectural state (10_state.md R20), and `memCells`, the model's own field (log 1). -/
structure State where
  /-- the memory cells (20_memory.md R50) -/
  mem : Memory
  /-- the registers `x[0]` to `x[7]`, `x[7]` being SP (10_state.md R21, R23) -/
  x : Vector Byte 8
  /-- the program counter, an unsigned integer that is never reduced (10_state.md R27, R28) -/
  pc : Nat
  /-- the flags, Equal = bit 0, Greater = bit 1, Less = bit 2 (10_state.md R31) -/
  fl : Flags
  /-- RUNNING, HALTED or ERROR(cause, info) (10_state.md R36) -/
  status : Status
  /-- the output stream, first value first (10_state.md R34) -/
  out : List Byte
  /-- the parameter `MEM_CELLS` of this machine (20_memory.md R51) -/
  memCells : MemCells
deriving DecidableEq, Repr

/-- Why `step` has no next state. The stop conditions of the spec are not among these: they are next states whose `status` is ERROR
(60_exceptions.md R156). -/
inductive Fault where
  /-- `step` on a machine that is HALTED: no step is enabled (10_state.md R36). Raised by `step` only. Safe: the machine takes no step. -/
  | noStepHalted
  /-- `step` on a machine that stopped with this error: no step is enabled (10_state.md R36). Raised by `step` only. Safe: the machine
  takes no step. -/
  | noStepStopped (c : StopCondition)
deriving DecidableEq, Repr

/-- What the model refuses. -/
inductive Refusal where
  /-- An instruction without a meaning. Raised by `exec`'s arms only; here every instruction has one, so nothing raises it. Safe. -/
  | notModelled (mnemonic : String)
  /-- A program of this many bytes does not fit the memory: reset is not defined for it (70_reset_and_hazards.md R184). Raised by the
  deposit interface `State.resetWith` only. Safe: nothing can be proved of such a run. -/
  | programTooLong (length : Nat)
deriving DecidableEq, Repr

/-- The machine right after reset with no program deposited: every component at its reset value, memory with nothing listed, and
`status` = ERROR(ProgramLoadFailure), since no byte was deposited (70_reset_and_hazards.md R181, R185). Reset with a program is
`State.resetWith` of Sys2Proof/Machine/Deposit.lean. -/
def State.reset : State where
  mem := []
  x := #v[resetReg, resetReg, resetReg, resetReg, resetReg, resetReg, resetReg, resetSp]
  pc := resetPc
  fl := resetFl
  status := resetStatusUnloaded
  out := []
  memCells := resetMemCells

end Sys2Proof.Machine
end

