-- ==== Sys2Proof/Machine/Ops.lean ====
section
/-!
DEFINITION. The named operations over the state: the pseudocode primitives of spec/00_scope.md R10, stopping (the only exception entry
this hardware has, spec/60_exceptions.md R156, R158), and fetching an instruction (spec/40_engine.md R92 to R94).

There is no return from a stop beside it: no instruction returns from one, and ERROR is absorbing (60_exceptions.md R159).
-/
namespace Sys2Proof.Machine

/-! ### Registers -/

/-- `x[i]` (00_scope.md R10). No register is hardwired (10_state.md R21). -/
def State.reg (s : State) (i : RegIdx) : Byte := s.x.get i

/-- `x[i] <- v`, register 7 included (00_scope.md R10; 10_state.md R23). -/
def State.setReg (s : State) (i : RegIdx) (v : Byte) : State := { s with x := s.x.set i.val v i.isLt }

/-- SP, which is `x[7]` (10_state.md R21). -/
def State.sp (s : State) : Byte := s.reg spIndex

/-- `x[7] <- (x[7] - 1) mod 256` (10_state.md R24; 43_stack.md R120). -/
def State.decSp (s : State) : State := s.setReg spIndex (s.sp - 1)

/-- `x[7] <- (x[7] + 1) mod 256` (10_state.md R24; 43_stack.md R121). -/
def State.incSp (s : State) : State := s.setReg spIndex (s.sp + 1)

/-! ### The other components -/

/-- `pc <- t`, an unsigned integer (00_scope.md R10). -/
def State.setPc (s : State) (t : Nat) : State := { s with pc := t }

/-- `advance`: `pc <- pc + 1 + cnt`, not reduced (40_engine.md R96; 10_state.md R28). -/
def State.advance (s : State) (cnt : Count) : State := s.setPc (s.pc + 1 + cnt.val)

/-- A taken transfer: an 8-bit target, zero-extended into `pc` (44_control_transfer.md R125). -/
def State.jump (s : State) (target : Byte) : State := s.setPc target.toNat

/-- `fl <- v`, all three bits at once (00_scope.md R10). -/
def State.setFl (s : State) (v : Flags) : State := { s with fl := v }

/-- `Emit(v)`: append to the output stream (10_state.md R34). -/
def State.emit (s : State) (v : Byte) : State := { s with out := s.out ++ [v] }

/-- `status <- v` (10_state.md R36). -/
def State.setStatus (s : State) (v : Status) : State := { s with status := v }

/-- The memory cells replaced as a whole; used by `memWrite` and the deposit only. -/
def State.setMem (s : State) (m : Memory) : State := { s with mem := m }

/-! ### Memory accesses, one byte each -/

/-- `MemRead(a, 1)`: bounds-checked, never wrapped (20_memory.md R52). -/
def State.memRead (s : State) (a : Nat) : Except StopCondition Byte :=
  if s.memCells.count ≤ a then .error (.addressOutOfRange a) else .ok (s.mem.read a)

/-- `MemWrite(a, 1, v)`: bounds-checked, never wrapped (20_memory.md R52). -/
def State.memWrite (s : State) (a : Nat) (v : Byte) : Except StopCondition State :=
  if s.memCells.count ≤ a then .error (.addressOutOfRange a) else .ok (s.setMem (s.mem.write a v))

/-! ### Stopping -/

/-- `raise C(info)`: the step ends with `status` = ERROR(C, info) and every other component as it was BEFORE the step; `s` is the state
the step began in (60_exceptions.md R156). -/
def raise (c : StopCondition) (s : State) : Host.Outcome State Fault Refusal := .next (s.setStatus (.error c))

/-- The end of a handler that began in `s`: its writes take effect together, or, if a statement raised, none does
(00_scope.md R11; 60_exceptions.md R156). -/
def commit (s : State) (r : Except StopCondition State) : Host.Outcome State Fault Refusal :=
  match r with
  | .ok s' => .next s'
  | .error c => raise c s

/-! ### Fetching an instruction -/

/-- The bytes in the `n` cells from `a` on, up to the first address that names no cell. -/
def State.readCells (s : State) (a : Nat) : Nat → List Byte
  | 0 => []
  | n + 1 =>
    match s.memRead a with
    | .ok b => b :: s.readCells (a + 1) n
    | .error _ => []

/-- The bytes at `pc`, `pc + 1` and `pc + 2` as far as they exist; an instruction reads no further (30_encoding.md R72). Reading has no
side effect (20_memory.md R57), so reading a byte the handler does not use changes nothing. -/
def State.fetchBytes (s : State) : List Byte := s.readCells s.pc 3

/-- The stop condition raised where the bytes at `pc` are no instruction (40_engine.md R92 to R94). -/
def stopOfDecode (pc : Nat) : DecodeError → StopCondition
  | .noBytes => .addressOutOfRange pc
  | .illegalKey b => .illegalInstruction pc b
  | .operandMissing k => .addressOutOfRange (pc + k)

/-- Fetch, decode and operand fetch: every byte of the instruction is read before anything is written (40_engine.md R92 to R95). -/
def State.fetch (s : State) : Except StopCondition Instr :=
  match decode s.fetchBytes with
  | .ok i => .ok i
  | .error e => .error (stopOfDecode s.pc e)

end Sys2Proof.Machine
end

