-- ==== Sys2Proof/Machine/Deposit.lean ====
section
/-!
DEFINITION. Reset with a program: the deposit interface (spec/70_reset_and_hazards.md R180 to R186). It is no step; the caller acts once,
before the run.
-/
namespace Sys2Proof.Machine

/-- Bytes deposited from address 0, in order, with no gaps (R183). The machine is then ready to fetch at `pc`. -/
def State.deposit (s : State) (base : Nat) (bytes : List Byte) : State :=
  { s with mem := s.mem.writeBytes base bytes, pc := base, status := resetStatusLoaded }

/-- The machine right after reset with a program: no bytes give ERROR(ProgramLoadFailure) (R185), more bytes than cells are refused
(R184), and otherwise the machine is RUNNING with byte `i` in cell `i` (R181, R183). -/
def State.resetWith (cells : MemCells) (program : List Byte) : Host.Outcome State Fault Refusal :=
  if cells.count < program.length then .refused (.programTooLong program.length)
  else if program.isEmpty then .next { State.reset with memCells := cells }
  else .next ({ State.reset with memCells := cells }.deposit resetPc program)

end Sys2Proof.Machine
end

