-- ==== Sys2Proof/Machine/Flags.lean ====
section
/-!
DEFINITION. The flags (spec/10_state.md R31): their bits, the one flag computation of the machine, CMP's (spec/45_alu.md R136), and the
Equal test of the conditional jumps (spec/44_control_transfer.md R129, R130).
-/
namespace Sys2Proof.Machine

/-- E: bit 0 (10_state.md R31). -/
def equalBit : Flags := 0b001

/-- G: bit 1 (10_state.md R31). -/
def greaterBit : Flags := 0b010

/-- L: bit 2 (10_state.md R31). -/
def lessBit : Flags := 0b100

/-- CMP's result: exactly one of E, G, L, comparing the bytes as unsigned numbers, Greater meaning the first is greater
(45_alu.md R136, the spec's decision D9; log 10). -/
def compareFlags (a b : Byte) : Flags :=
  if a = b then equalBit else if b.toNat < a.toNat then greaterBit else lessBit

/-- `fl[0] = 1`, a precise test of bit 0 (44_control_transfer.md R129). -/
def State.equalSet (s : State) : Bool := s.fl.getLsbD 0

end Sys2Proof.Machine
end

