-- ==== Sys2Proof/Machine/Alu.lean ====
section
/-!
DEFINITION. The ALU (spec/45_alu.md R135): a stateless function of an operation and two register values, and the meanings of the three
instructions that call it, in the order of the source's table: CMP, ADD, MUL.
-/
namespace Sys2Proof.Machine

/-- What the ALU answers: a value for the destination register, or new flags (45_alu.md R135). -/
inductive AluResult where
  | value (v : Byte)
  | flags (f : Flags)
deriving DecidableEq, Repr

/-- The ALU: results keep their low 8 bits (45_alu.md R139), and an operation it does not implement raises (R141). -/
def alu (op : AluOp) (a b : Byte) : Except StopCondition AluResult :=
  match op with
  | .cmp => .ok (.flags (compareFlags a b))
  | .add => .ok (.value (a + b))
  | .mul => .ok (.value (a * b))
  | .other n => .error (.unsupportedALUOperation (.other n))

/-- Where the ALU's answer goes: a value to register `d` only, flags to FL only (45_alu.md R136 to R138). -/
def State.takeResult (s : State) (d : RegIdx) : AluResult → State
  | .value v => s.setReg d v
  | .flags f => s.setFl f

/-- A handler that calls the ALU on registers `a` and `b`, `a` being the destination: both are read before anything is written
(45_alu.md R140), then it advances. -/
def execAlu (op : AluOp) (cnt : Count) (a b : RegIdx) (s : State) : Host.Outcome State Fault Refusal :=
  commit s ((alu op (s.reg a) (s.reg b)).map fun r => (s.takeResult a r).advance cnt)

/-- CMP a, b (45_alu.md R136). -/
def execCmp (cnt : Count) (a b : RegIdx) (s : State) : Host.Outcome State Fault Refusal := execAlu .cmp cnt a b s

/-- ADD a, b: `x[a] <- (x[a] + x[b]) mod 256` (45_alu.md R137). -/
def execAdd (cnt : Count) (a b : RegIdx) (s : State) : Host.Outcome State Fault Refusal := execAlu .add cnt a b s

/-- MUL: `x[0] <- (x[0] * x[1]) mod 256`, whatever the bytes after its first one say (45_alu.md R138). -/
def execMul (cnt : Count) (s : State) : Host.Outcome State Fault Refusal := execAlu .mul cnt 0 1 s

end Sys2Proof.Machine
end

