-- ==== Sys2Proof/Machine/Operands.lean ====
section
/-!
DEFINITION. The operand forms (spec/30_encoding.md R76 to R78): a register selected by its index (`State.reg`), LDI's immediate byte
(taken as it stands), and the one memory addressing mode, register-indirect through SP with pre-decrement for a store and
post-increment for a load (spec/43_stack.md, opening; R122).
-/
namespace Sys2Proof.Machine

/-- Where PUSH and CALL store: the decremented SP, `(x[7] - 1) mod 256` (20_memory.md R54; 43_stack.md R120). -/
def State.pushAddr (s : State) : Nat := (s.sp - 1).toNat

/-- Where POP and RET read: the current SP (20_memory.md R54; 43_stack.md R121). -/
def State.popAddr (s : State) : Nat := s.sp.toNat

/-- A push of the byte `v`: SP is decremented, then the cell it addresses becomes `v` (43_stack.md R120; 44_control_transfer.md R126). -/
def State.pushed (s : State) (v : Byte) : Except StopCondition State := s.decSp.memWrite s.pushAddr v

/-- The byte on top of the stack (43_stack.md R121). -/
def State.top (s : State) : Except StopCondition Byte := s.memRead s.popAddr

end Sys2Proof.Machine
end

