-- ==== Sys2Proof/Machine/Control.lean ====
section
/-!
DEFINITION. The control transfer family: CALL, RET, JMP, JEQ, JNE (spec/44_control_transfer.md). A taken transfer loads an 8-bit target
into `pc` and skips the advance, so the count field has no effect on it (R125).
-/
namespace Sys2Proof.Machine

/-- The address of the instruction following a CALL, `pc + 2` whatever `cnt` says; it must fit the 8-bit stack cell
(44_control_transfer.md R126, decision D20, log 16). -/
def State.returnAddr (s : State) : Except StopCondition Byte :=
  if 0xFF < s.pc + 2 then .error (.addressOutOfRange (s.pc + 2)) else .ok (BitVec.ofNat 8 (s.pc + 2))

/-- CALL r: push `pc + 2`, then `pc <- x[r]`, read after the push (44_control_transfer.md R126; CALL R7 follows the spec's decision D14,
log 9). -/
def execCall (_cnt : Count) (r : RegIdx) (s : State) : Host.Outcome State Fault Refusal :=
  commit s (s.returnAddr.bind fun ret => (s.pushed ret).map fun s' => s'.jump (s'.reg r))

/-- RET: pop the return address into `pc` (44_control_transfer.md R127). -/
def execRet (_cnt : Count) (s : State) : Host.Outcome State Fault Refusal :=
  commit s (s.top.map fun t => s.incSp.jump t)

/-- JMP r (44_control_transfer.md R128). -/
def execJmp (_cnt : Count) (r : RegIdx) (s : State) : Host.Outcome State Fault Refusal :=
  commit s (.ok (s.jump (s.reg r)))

/-- A conditional jump: taken it loads the register, not taken it advances (44_control_transfer.md R129, R130). -/
def State.branch (s : State) (taken : Bool) (cnt : Count) (r : RegIdx) : State :=
  if taken then s.jump (s.reg r) else s.advance cnt

/-- JEQ r: taken when Equal is set (44_control_transfer.md R129). -/
def execJeq (cnt : Count) (r : RegIdx) (s : State) : Host.Outcome State Fault Refusal :=
  commit s (.ok (s.branch s.equalSet cnt r))

/-- JNE r: taken when Equal is clear (44_control_transfer.md R130). -/
def execJne (cnt : Count) (r : RegIdx) (s : State) : Host.Outcome State Fault Refusal :=
  commit s (.ok (s.branch (!s.equalSet) cnt r))

end Sys2Proof.Machine
end

