-- ==== Sys2Proof/Machine/Load.lean ====
section
/-!
DEFINITION. The load family: LDI (spec/42_load.md).
-/
namespace Sys2Proof.Machine

/-- LDI r, imm8: `x[r] <- imm8`, all 8 bits (42_load.md R115). -/
def execLdi (cnt : Count) (r : RegIdx) (imm : Byte) (s : State) : Host.Outcome State Fault Refusal :=
  commit s (.ok ((s.setReg r imm).advance cnt))

end Sys2Proof.Machine
end

