-- ==== Sys2Proof/Machine/Stack.lean ====
section
/-!
DEFINITION. The stack family: PUSH, POP (spec/43_stack.md).
-/
namespace Sys2Proof.Machine

/-- PUSH r: decrement SP, then store `x[r]`, which is read after the decrement (43_stack.md R120; PUSH R7 follows the spec's decision
D14, log 9). -/
def execPush (cnt : Count) (r : RegIdx) (s : State) : Host.Outcome State Fault Refusal :=
  commit s ((s.pushed (s.decSp.reg r)).map fun s' => s'.advance cnt)

/-- POP r: load `x[r]` from the top of the stack, then increment SP, which is read after the load (43_stack.md R121; POP R7 follows the
spec's decision D14, log 9). -/
def execPop (cnt : Count) (r : RegIdx) (s : State) : Host.Outcome State Fault Refusal :=
  commit s (s.top.map fun v => ((s.setReg r v).incSp).advance cnt)

end Sys2Proof.Machine
end

