-- ==== Sys2Proof/Machine/System.lean ====
section
/-!
DEFINITION. The system family: HLT, PRN (spec/41_system.md), the machine's whole interface to its environment while it runs.
-/
namespace Sys2Proof.Machine

/-- HLT: `status <- HALTED`; `pc` keeps the address of the HLT (41_system.md R110, the spec's decision D12, log 7). -/
def execHlt (_cnt : Count) (s : State) : Host.Outcome State Fault Refusal :=
  commit s (.ok (s.setStatus .halted))

/-- PRN r: append the 8-bit content of `x[r]` to the output (41_system.md R111). -/
def execPrn (cnt : Count) (r : RegIdx) (s : State) : Host.Outcome State Fault Refusal :=
  commit s (.ok ((s.emit (s.reg r)).advance cnt))

end Sys2Proof.Machine
end

