-- ==== Sys2Proof/Machine/Dispatch.lean ====
section
/-!
DEFINITION. One arm per instruction: the handler of spec/40_engine.md R98's case.
-/
namespace Sys2Proof.Machine

def exec (i : Instr) (s : State) : Host.Outcome State Fault Refusal :=
  match i with
  | .hlt cnt => Sys2Proof.Machine.execHlt cnt s
  | .ldi cnt r imm => Sys2Proof.Machine.execLdi cnt r imm s
  | .push cnt r => Sys2Proof.Machine.execPush cnt r s
  | .pop cnt r => Sys2Proof.Machine.execPop cnt r s
  | .prn cnt r => Sys2Proof.Machine.execPrn cnt r s
  | .call cnt r => Sys2Proof.Machine.execCall cnt r s
  | .ret cnt => Sys2Proof.Machine.execRet cnt s
  | .jmp cnt r => Sys2Proof.Machine.execJmp cnt r s
  | .jeq cnt r => Sys2Proof.Machine.execJeq cnt r s
  | .jne cnt r => Sys2Proof.Machine.execJne cnt r s
  | .cmp cnt a b => Sys2Proof.Machine.execCmp cnt a b s
  | .add cnt a b => Sys2Proof.Machine.execAdd cnt a b s
  | .mul cnt => Sys2Proof.Machine.execMul cnt s

end Sys2Proof.Machine
end

