-- ==== Sys2Proof/Machine/Step.lean ====
section
/-!
DEFINITION. The step (spec/40_engine.md R90, R98): enabled only while RUNNING; it fetches and decodes the instruction at `pc`, stops if
there is none, and otherwise runs its handler.
-/
namespace Sys2Proof.Machine

/-- One step. In HALTED and ERROR no step is enabled (10_state.md R36; log 4). -/
def step (s : State) : Host.Outcome State Fault Refusal :=
  match s.status with
  | .halted => .fault .noStepHalted
  | .error c => .fault (.noStepStopped c)
  | .running =>
    match s.fetch with
    | .error c => raise c s
    | .ok i => exec i s

/-- Where `withFetchWord` stores: at `pc` if three bytes fit there, else at address 0, where a program is deposited (log 3). -/
def State.fetchBase (s : State) : Nat := if s.pc + 3 ≤ s.memCells.count then s.pc else resetPc

/-- `s` with the instruction of an opcode-table word stored where the next step fetches, and RUNNING, as after the deposit of a program
(70_reset_and_hazards.md R183, R186; log 2, log 3). -/
def State.withFetchWord (s : State) (nbits w : Nat) : State := s.deposit s.fetchBase (tableBytes nbits w)

end Sys2Proof.Machine
end

