-- ==== Sys2Proof/Safety.lean ====
section
/-!
DEFINITION. The terms the claims use: which keys are registered, which registers and cells an instruction may touch (the spec's tables),
what "unchanged" means, which condition a step reports, runs without a compare, how a run ended, and the invariant every step keeps.
-/
namespace Sys2Proof.Machine

/-! ### The spec's tables -/

/-- The thirteen registered keys as numbers (30_encoding.md R74). -/
def registeredKeys : List Nat := [0x01, 0x02, 0x05, 0x06, 0x07, 0x10, 0x11, 0x14, 0x15, 0x16, 0x20, 0x22, 0x27]

/-- The keys whose handler reads one operand byte, format F1 (30_encoding.md R72, R74). -/
def oneOperandKeys : List Nat := [0x05, 0x06, 0x07, 0x10, 0x14, 0x15, 0x16]

/-- The keys whose handler reads two operand bytes, format F2 (30_encoding.md R72, R74). -/
def twoOperandKeys : List Nat := [0x02, 0x20, 0x27]

/-- The column "registers written" of 10_state.md R25. -/
def mayWriteReg (i : Instr) (j : RegIdx) : Bool :=
  match i with
  | .ldi _ r _ => j == r
  | .push _ _ | .call _ _ | .ret _ => j == 7
  | .pop _ r => j == r || j == 7
  | .add _ a _ => j == a
  | .mul _ => j == 0
  | .hlt _ | .prn _ _ | .jmp _ _ | .jeq _ _ | .jne _ _ | .cmp _ _ _ => false

/-- The column "registers read" of 10_state.md R25, the state deciding whether JEQ and JNE are taken. -/
def mayReadReg (i : Instr) (s : State) (j : RegIdx) : Bool :=
  match i with
  | .push _ r | .call _ r => j == 7 || j == r
  | .pop _ _ | .ret _ => j == 7
  | .prn _ r | .jmp _ r => j == r
  | .jeq _ r => j == r && s.fl.getLsbD 0
  | .jne _ r => j == r && !s.fl.getLsbD 0
  | .cmp _ a b | .add _ a b => j == a || j == b
  | .mul _ => j == 0 || j == 1
  | .hlt _ | .ldi _ _ _ => false

/-- The cell an instruction stores to, if any: PUSH and CALL, at the decremented SP (20_memory.md R54). -/
def storesTo (i : Instr) (s : State) : Option Nat :=
  match i with
  | .push _ _ | .call _ _ => some s.pushAddr
  | .hlt _ | .ldi _ _ _ | .pop _ _ | .prn _ _ | .ret _ | .jmp _ _ | .jeq _ _ | .jne _ _ | .cmp _ _ _ | .add _ _ _ | .mul _ => none

/-! ### What "unchanged" means -/

/-- Every byte of memory reads in `t` as in `s`, at every address. -/
def SameMemory (s t : State) : Prop := t.memCells = s.memCells ∧ ∀ a, t.memRead a = s.memRead a

/-- Every byte of memory but the one at `a` reads in `t` as in `s`. -/
def SameMemoryBut (a : Nat) (s t : State) : Prop := t.memCells = s.memCells ∧ ∀ b, b ≠ a → t.memRead b = s.memRead b

/-- Every register but those in `w` holds in `t` what it held in `s`. -/
def SameRegsBut (w : List RegIdx) (s t : State) : Prop := ∀ j, j ∉ w → t.reg j = s.reg j

/-- The state a stop condition leaves: `s` with `status` = ERROR(c) and nothing else changed (60_exceptions.md R156). -/
def stoppedWith (c : StopCondition) (s : State) : State := { s with status := .error c }

/-! ### Which condition a step reports -/

/-- The checks of a step in the order of 60_exceptions.md R157: `c` is the first that fails. Each line asks that the checks before it
passed. -/
def FirstFailedCheck (s : State) (c : StopCondition) : Prop :=
  (s.memCells.count ≤ s.pc ∧ c = .addressOutOfRange s.pc) ∨
  ∃ b, s.memRead s.pc = .ok b ∧
    ((b.toNat % 64 ∉ registeredKeys ∧ c = .illegalInstruction s.pc b) ∨
     (b.toNat % 64 ∈ oneOperandKeys ++ twoOperandKeys ∧ s.memCells.count ≤ s.pc + 1 ∧ c = .addressOutOfRange (s.pc + 1)) ∨
     (b.toNat % 64 ∈ twoOperandKeys ∧ s.pc + 1 < s.memCells.count ∧ s.memCells.count ≤ s.pc + 2 ∧
       c = .addressOutOfRange (s.pc + 2)) ∨
     (b.toNat % 64 = 0x10 ∧ s.pc + 1 < s.memCells.count ∧ 0xFF < s.pc + 2 ∧ c = .addressOutOfRange (s.pc + 2)) ∨
     (b.toNat % 64 = 0x10 ∧ s.pc + 1 < s.memCells.count ∧ s.pc + 2 ≤ 0xFF ∧ s.memCells.count ≤ s.pushAddr ∧
       c = .addressOutOfRange s.pushAddr) ∨
     (b.toNat % 64 = 0x05 ∧ s.pc + 1 < s.memCells.count ∧ s.memCells.count ≤ s.pushAddr ∧ c = .addressOutOfRange s.pushAddr) ∨
     (b.toNat % 64 = 0x06 ∧ s.pc + 1 < s.memCells.count ∧ s.memCells.count ≤ s.popAddr ∧ c = .addressOutOfRange s.popAddr) ∨
     (b.toNat % 64 = 0x11 ∧ s.memCells.count ≤ s.popAddr ∧ c = .addressOutOfRange s.popAddr))

/-! ### Runs without a compare -/

/-- `t` is reached from `s` by steps, none of which fetches a first byte with CMP's key (44_control_transfer.md R131). -/
inductive RunWithoutCmp : State → State → Prop where
  | start (s : State) : RunWithoutCmp s s
  | step {s t u : State} : RunWithoutCmp s t → (∀ b, t.memRead t.pc = .ok b → b.toNat % 64 ≠ 0x27) →
      Machine.step t = .next u → RunWithoutCmp s u

/-! ### How a run ends (60_exceptions.md R168) -/

/-- "Successful halt". -/
def State.haltedNormally (s : State) : Bool := s.status == .halted

/-- "Error halt". -/
def State.stoppedByError (s : State) : Bool := s.status != .running && s.status != .halted

/-! ### The invariant -/

/-- What holds at reset and after every step. -/
structure State.Inv (s : State) : Prop where
  /-- memory is in its canonical form -/
  memCanonical : s.mem.wf
  /-- only cells that exist are listed (20_memory.md R51) -/
  memInBounds : ∀ c ∈ s.mem, c.1 < s.memCells.count
  /-- `pc` never exceeds `MEM_CELLS` + 3 (10_state.md R28) -/
  pcBound : s.pc ≤ s.memCells.count + 3
  /-- FL is always one of 0b000, 0b001, 0b010, 0b100 (10_state.md R33) -/
  flLegal : s.fl = 0b000 ∨ s.fl = 0b001 ∨ s.fl = 0b010 ∨ s.fl = 0b100
  /-- a halted machine's `pc` is the address of the HLT (10_state.md R30) -/
  haltedAtHlt : s.status = .halted → ∃ b, s.memRead s.pc = .ok b ∧ b.toNat % 64 = 0x01
  /-- IllegalInstruction records `pc` and the byte there, whose key is not registered (60_exceptions.md R151) -/
  illegalAtPc : ∀ p b, s.status = .error (.illegalInstruction p b) →
    p = s.pc ∧ s.memRead s.pc = .ok b ∧ b.toNat % 64 ∉ registeredKeys
  /-- AddressOutOfRange records an address that names no cell, or a return address above 0xFF (60_exceptions.md R154) -/
  rangeOutside : ∀ a, s.status = .error (.addressOutOfRange a) → s.memCells.count ≤ a ∨ 0xFF < a
  /-- UnsupportedALUOperation is never produced (60_exceptions.md R152) -/
  aluSupported : ∀ op, s.status ≠ .error (.unsupportedALUOperation op)
  /-- a machine without a program has not run: `pc` is 0, memory all 0x00, no output (70_reset_and_hazards.md R185) -/
  unloadedUntouched : s.status = .error .programLoadFailure → s.pc = 0 ∧ s.mem = [] ∧ s.out = []

end Sys2Proof.Machine
end

