-- ==== Sys2Proof/Certificates/Slice0/Obligations.lean ====
section
/-!
DEFINITION. The statements for the provers. Each docstring names the rule of spec/ it formalises, and, where a clause rests on one of the
spec's own decisions (92_eei_decisions.md D<n>), the decision and the log entry that records it.

Bytes and operands are described here by numbers (`b.toNat = 64 * cnt + key`, `r = o1 mod 8`), not by the decoder's own bit-field
functions, so that a wrong bit field would make a statement false. Every statement that says how a step comes to run a handler, through
`RunsWithoutOperand`, `RunsWithOneOperand` or `RunsWithTwoOperands`, rests on the spec's decisions D6, D7 and D15 (every count, masked
selectors, which operand bytes are read; log 8) and, for its operand stops, on D3 and D13 (log 5).
-/
namespace Sys2Proof.Claims
open Sys2Proof.Machine

/-- The step of a handler that reads no operand byte (formats F0 and F2X, 30_encoding.md R72): from a RUNNING state whose byte at `pc` is
`{cnt, key}` it runs that handler, for every `cnt` (R79). -/
def RunsWithoutOperand (key : Nat) (mk : Count → Instr) : Prop :=
  ∀ (s : State) (cnt : Count) (b : Byte), s.status = .running → s.memRead s.pc = .ok b → b.toNat = 64 * cnt.val + key →
    step s = exec (mk cnt) s

/-- The step of a handler that reads one register selector (format F1): it stops with AddressOutOfRange(pc + 1) where that cell does not
exist, and otherwise runs the handler with register `o1 mod 8` (40_engine.md R94; 30_encoding.md R77). -/
def RunsWithOneOperand (key : Nat) (mk : Count → RegIdx → Instr) : Prop :=
  ∀ (s : State) (cnt : Count) (b : Byte), s.status = .running → s.memRead s.pc = .ok b → b.toNat = 64 * cnt.val + key →
    (s.memCells.count ≤ s.pc + 1 → step s = .next (stoppedWith (.addressOutOfRange (s.pc + 1)) s)) ∧
    (∀ (o1 : Byte) (r : RegIdx), s.memRead (s.pc + 1) = .ok o1 → r.val = o1.toNat % 8 → step s = exec (mk cnt r) s)

/-- The step of a handler that reads a register selector and a second operand byte (format F2): it stops with AddressOutOfRange at the
first of `pc + 1`, `pc + 2` that does not exist, and otherwise runs the handler (40_engine.md R94; 30_encoding.md R77). -/
def RunsWithTwoOperands (key : Nat) (mk : Count → RegIdx → Byte → Instr) : Prop :=
  ∀ (s : State) (cnt : Count) (b : Byte), s.status = .running → s.memRead s.pc = .ok b → b.toNat = 64 * cnt.val + key →
    (s.memCells.count ≤ s.pc + 1 → step s = .next (stoppedWith (.addressOutOfRange (s.pc + 1)) s)) ∧
    (s.pc + 1 < s.memCells.count → s.memCells.count ≤ s.pc + 2 →
      step s = .next (stoppedWith (.addressOutOfRange (s.pc + 2)) s)) ∧
    (∀ (o1 o2 : Byte) (r : RegIdx), s.memRead (s.pc + 1) = .ok o1 → s.memRead (s.pc + 2) = .ok o2 → r.val = o1.toNat % 8 →
      step s = exec (mk cnt r o2) s)

/-- A step that leaves flags, output and status as they were. -/
def SameFlagsOutputStatus (s t : State) : Prop := t.fl = s.fl ∧ t.out = s.out ∧ t.status = s.status

end Sys2Proof.Claims

open Sys2Proof Sys2Proof.Machine Sys2Proof.Claims

/-! ### The thirteen instructions: result, frame, stops, and how a step comes to run them -/

/-- 42_load.md R115. The operand stops with `status` alone changed are the spec's decisions D3 and D13 (log 5; 60_exceptions.md R156), the
run under every count its decision D6 (log 8; 30_encoding.md R79). -/
def Obligations.LdiLoadsItsImmediate : Prop :=
  (∀ (cnt : Count) (r : RegIdx) (imm : Byte) (s : State), ∃ t, exec (.ldi cnt r imm) s = .next t ∧
    t.reg r = imm ∧ SameRegsBut [r] s t ∧ t.pc = s.pc + 1 + cnt.val ∧ SameFlagsOutputStatus s t ∧ SameMemory s t) ∧
  RunsWithTwoOperands 0x02 (fun cnt r o2 => .ldi cnt r o2)

/-- 43_stack.md R120; the stop clause is 60_exceptions.md R156, the spec's decisions D3 and D13 (log 5), and PUSH R7 storing the
decremented SP is its decision D14 (log 9). How a step comes to run it follows its D6, D7 and D15 (log 8). -/
def Obligations.PushStoresBelowTheStackPointer : Prop :=
  (∀ s : State, s.pushAddr = (s.sp.toNat + 255) % 256) ∧
  (∀ (cnt : Count) (r : RegIdx) (s : State), s.pushAddr < s.memCells.count → ∃ t, exec (.push cnt r) s = .next t ∧
    t.sp.toNat = s.pushAddr ∧ SameRegsBut [7] s t ∧
    t.memRead s.pushAddr = .ok (if r = 7 then BitVec.ofNat 8 s.pushAddr else s.reg r) ∧ SameMemoryBut s.pushAddr s t ∧
    t.pc = s.pc + 1 + cnt.val ∧ SameFlagsOutputStatus s t) ∧
  (∀ (cnt : Count) (r : RegIdx) (s : State), s.memCells.count ≤ s.pushAddr →
    exec (.push cnt r) s = .next (stoppedWith (.addressOutOfRange s.pushAddr) s)) ∧
  RunsWithOneOperand 0x05 (fun cnt r => .push cnt r)

/-- 43_stack.md R121; the stop clause is 60_exceptions.md R156, the spec's decisions D3 and D13 (log 5), and POP R7 leaving the popped
value plus one is its decision D14 (log 9). How a step comes to run it follows its D6, D7 and D15 (log 8). -/
def Obligations.PopLoadsTheTopOfTheStack : Prop :=
  (∀ s : State, s.popAddr = s.sp.toNat) ∧
  (∀ (cnt : Count) (r : RegIdx) (s : State) (v : Byte), s.memRead s.popAddr = .ok v → ∃ t, exec (.pop cnt r) s = .next t ∧
    (r ≠ 7 → t.reg r = v ∧ t.sp.toNat = (s.sp.toNat + 1) % 256) ∧ (r = 7 → t.sp.toNat = (v.toNat + 1) % 256) ∧
    SameRegsBut [r, 7] s t ∧ t.pc = s.pc + 1 + cnt.val ∧ SameFlagsOutputStatus s t ∧ SameMemory s t) ∧
  (∀ (cnt : Count) (r : RegIdx) (s : State), s.memCells.count ≤ s.popAddr →
    exec (.pop cnt r) s = .next (stoppedWith (.addressOutOfRange s.popAddr) s)) ∧
  RunsWithOneOperand 0x06 (fun cnt r => .pop cnt r)

/-- 41_system.md R111; that the value is the register's whole 8 bits, unsigned, is the spec's decision D16 (log 18). How a step comes to
run it, or stops at its operands, follows D6, D7 and D15 (log 8), D3 and D13 (log 5). -/
def Obligations.PrnAppendsOneRegisterValue : Prop :=
  (∀ (cnt : Count) (r : RegIdx) (s : State), ∃ t, exec (.prn cnt r) s = .next t ∧
    t.out = s.out ++ [s.reg r] ∧ SameRegsBut [] s t ∧ t.pc = s.pc + 1 + cnt.val ∧ t.fl = s.fl ∧ t.status = s.status ∧
    SameMemory s t) ∧
  RunsWithOneOperand 0x07 (fun cnt r => .prn cnt r)

/-- 44_control_transfer.md R126; the return-address stop is the spec's decision D20 (log 16), CALL R7 jumping to the decremented SP its
decision D14 (log 9), its other stops D3 and D13 (log 5). How a step comes to run it follows D6, D7 and D15 (log 8). -/
def Obligations.CallPushesTheReturnAddress : Prop :=
  (∀ (cnt : Count) (r : RegIdx) (s : State), s.pc + 2 ≤ 0xFF → s.pushAddr < s.memCells.count →
    ∃ t, exec (.call cnt r) s = .next t ∧
      t.sp.toNat = s.pushAddr ∧ SameRegsBut [7] s t ∧
      (∃ ret : Byte, t.memRead s.pushAddr = .ok ret ∧ ret.toNat = s.pc + 2) ∧ SameMemoryBut s.pushAddr s t ∧
      t.pc = (if r = 7 then s.pushAddr else (s.reg r).toNat) ∧ SameFlagsOutputStatus s t) ∧
  (∀ (cnt : Count) (r : RegIdx) (s : State), 0xFF < s.pc + 2 →
    exec (.call cnt r) s = .next (stoppedWith (.addressOutOfRange (s.pc + 2)) s)) ∧
  (∀ (cnt : Count) (r : RegIdx) (s : State), s.pc + 2 ≤ 0xFF → s.memCells.count ≤ s.pushAddr →
    exec (.call cnt r) s = .next (stoppedWith (.addressOutOfRange s.pushAddr) s)) ∧
  RunsWithOneOperand 0x10 (fun cnt r => .call cnt r)

/-- 44_control_transfer.md R127, its CALL and RET property included: the subroutine in between may do anything that leaves SP and the cell
it points to as CALL left them. The stop with `status` alone changed is the spec's decisions D3 and D13 (log 5; 60_exceptions.md R156),
the run under every count its decision D6 (log 8; 30_encoding.md R79). -/
def Obligations.RetPopsTheProgramCounter : Prop :=
  (∀ (cnt : Count) (s : State) (v : Byte), s.memRead s.popAddr = .ok v → ∃ t, exec (.ret cnt) s = .next t ∧
    t.pc = v.toNat ∧ t.sp.toNat = (s.sp.toNat + 1) % 256 ∧ SameRegsBut [7] s t ∧ SameFlagsOutputStatus s t ∧
    SameMemory s t) ∧
  (∀ (cnt : Count) (s : State), s.memCells.count ≤ s.popAddr →
    exec (.ret cnt) s = .next (stoppedWith (.addressOutOfRange s.popAddr) s)) ∧
  (∀ (cnt cnt' : Count) (r : RegIdx) (s t u : State), s.pc + 2 ≤ 0xFF → s.pushAddr < s.memCells.count →
    exec (.call cnt r) s = .next t → u.sp = t.sp → u.memRead t.popAddr = t.memRead t.popAddr →
    ∃ v, exec (.ret cnt') u = .next v ∧ v.pc = s.pc + 2 ∧ v.sp = s.sp) ∧
  RunsWithoutOperand 0x11 (fun cnt => .ret cnt)

/-- 44_control_transfer.md R128. That the register is `o1 mod 8` is the spec's decision D7 and the run under every count its decision D6
(log 8; 30_encoding.md R77, R79); the operand stop with `status` alone changed is its decisions D3 and D13 (log 5; 60_exceptions.md R156).
-/
def Obligations.JmpGoesToTheRegister : Prop :=
  (∀ (cnt : Count) (r : RegIdx) (s : State), ∃ t, exec (.jmp cnt r) s = .next t ∧
    t.pc = (s.reg r).toNat ∧ SameRegsBut [] s t ∧ SameFlagsOutputStatus s t ∧ SameMemory s t) ∧
  RunsWithOneOperand 0x14 (fun cnt r => .jmp cnt r)

/-- 44_control_transfer.md R129; the last clause, that JEQ falls through on the flags a reset leaves, is the spec's decision D10 (log 6).
How a step comes to run it, or stops at its operands, follows D6, D7 and D15 (log 8), D3 and D13 (log 5). -/
def Obligations.JeqJumpsWhenEqualIsSet : Prop :=
  (∀ (cnt : Count) (r : RegIdx) (s : State), ∃ t, exec (.jeq cnt r) s = .next t ∧
    (s.fl.toNat % 2 = 1 → t.pc = (s.reg r).toNat) ∧ (s.fl.toNat % 2 = 0 → t.pc = s.pc + 1 + cnt.val) ∧
    SameRegsBut [] s t ∧ SameFlagsOutputStatus s t ∧ SameMemory s t) ∧
  RunsWithOneOperand 0x15 (fun cnt r => .jeq cnt r) ∧
  (∀ (cnt : Count) (r : RegIdx) (s : State), s.fl = State.reset.fl →
    ∃ t, exec (.jeq cnt r) s = .next t ∧ t.pc = s.pc + 1 + cnt.val)

/-- 44_control_transfer.md R130, its complement to JEQ included; the last clause, that JNE jumps on the flags a reset leaves, is the
spec's decision D10 (log 6). How a step comes to run it, or stops at its operands, follows D6, D7 and D15 (log 8), D3 and D13 (log 5). -/
def Obligations.JneJumpsWhenEqualIsClear : Prop :=
  (∀ (cnt : Count) (r : RegIdx) (s : State), ∃ t, exec (.jne cnt r) s = .next t ∧
    (s.fl.toNat % 2 = 0 → t.pc = (s.reg r).toNat) ∧ (s.fl.toNat % 2 = 1 → t.pc = s.pc + 1 + cnt.val) ∧
    SameRegsBut [] s t ∧ SameFlagsOutputStatus s t ∧ SameMemory s t) ∧
  (∀ (cnt : Count) (r : RegIdx) (s : State), ∃ t u, exec (.jeq cnt r) s = .next t ∧ exec (.jne cnt r) s = .next u ∧
    ((t = s.jump (s.reg r) ∧ u = s.advance cnt) ∨ (t = s.advance cnt ∧ u = s.jump (s.reg r)))) ∧
  RunsWithOneOperand 0x16 (fun cnt r => .jne cnt r) ∧
  (∀ (cnt : Count) (r : RegIdx) (s : State), s.fl = State.reset.fl → ∃ t, exec (.jne cnt r) s = .next t ∧ t.pc = (s.reg r).toNat)

/-- 45_alu.md R136; that Greater means the first register is greater, as unsigned numbers, is the spec's decision D9 (log 10). How a step
comes to run it, or stops at its operands, follows D6, D7 and D15 (log 8), D3 and D13 (log 5). -/
def Obligations.CmpSetsExactlyOneFlag : Prop :=
  (∀ (cnt : Count) (a b : RegIdx) (s : State), ∃ t, exec (.cmp cnt a b) s = .next t ∧
    ((s.reg a).toNat = (s.reg b).toNat → t.fl = 0b001) ∧ ((s.reg a).toNat > (s.reg b).toNat → t.fl = 0b010) ∧
    ((s.reg a).toNat < (s.reg b).toNat → t.fl = 0b100) ∧
    SameRegsBut [] s t ∧ t.pc = s.pc + 1 + cnt.val ∧ t.out = s.out ∧ t.status = s.status ∧ SameMemory s t) ∧
  RunsWithTwoOperands 0x27 (fun cnt a o2 => .cmp cnt a (Fin.ofNat 8 o2.toNat))

/-- 45_alu.md R137 and R140; the width of 8 bits is the spec's decision D1 (log 11). How a step comes to run it, or stops at its operands,
follows D6, D7 and D15 (log 8), D3 and D13 (log 5). -/
def Obligations.AddWrapsIntoTheFirstRegister : Prop :=
  (∀ (cnt : Count) (a b : RegIdx) (s : State), ∃ t, exec (.add cnt a b) s = .next t ∧
    (t.reg a).toNat = ((s.reg a).toNat + (s.reg b).toNat) % 256 ∧ SameRegsBut [a] s t ∧ t.pc = s.pc + 1 + cnt.val ∧
    SameFlagsOutputStatus s t ∧ SameMemory s t) ∧
  RunsWithTwoOperands 0x20 (fun cnt a o2 => .add cnt a (Fin.ofNat 8 o2.toNat))

/-- 45_alu.md R138; the destination R0 alone, the wrap and the untouched flags are the spec's decision D8 (log 11). MUL's step reads no
operand byte, so it runs in the last cell of memory too (D15, log 8); it runs under every count by D6 (log 8). -/
def Obligations.MulMultipliesRegistersZeroAndOne : Prop :=
  (∀ (cnt : Count) (s : State), ∃ t, exec (.mul cnt) s = .next t ∧
    (t.reg 0).toNat = ((s.reg 0).toNat * (s.reg 1).toNat) % 256 ∧ SameRegsBut [0] s t ∧ t.pc = s.pc + 1 + cnt.val ∧
    SameFlagsOutputStatus s t ∧ SameMemory s t) ∧
  RunsWithoutOperand 0x22 (fun cnt => .mul cnt)

/-- 41_system.md R110; that `pc` stays at the HLT is the spec's decision D12 (log 7), that every count runs it its D6 (log 8). -/
def Obligations.HltHaltsAtItsOwnAddress : Prop :=
  (∀ (cnt : Count) (s : State), ∃ t, exec (.hlt cnt) s = .next t ∧
    t.status = .halted ∧ t.pc = s.pc ∧ SameRegsBut [] s t ∧ t.fl = s.fl ∧ t.out = s.out ∧ SameMemory s t) ∧
  RunsWithoutOperand 0x01 (fun cnt => .hlt cnt)

/-! ### Encoding -/

/-- Decoding the encoding of any instruction, with any bytes after it, gives the instruction back, every operand at every value
(30_encoding.md R70, R72, R74, R76, R77); well-formed or not, aliases included (the spec's decisions D6 and D7, log 8). The zeros the
encoder writes where the decoder looks at nothing are the model's choice (log 13). -/
def Obligations.DecodeOfEncodeIsTheInstruction : Prop :=
  ∀ (i : Instr) (rest : List Byte), decode (encode i ++ rest) = .ok i

/-- No two instructions share a first byte: whatever decodes begins with the first byte of its instruction's encoding, and bytes that
begin alike decode to the same handler and count (30_encoding.md R70, R79; that an alias has its key's handler is the spec's decision D6,
log 8). -/
def Obligations.FirstByteFixesHandlerAndCount : Prop :=
  (∀ (bytes : List Byte) (i : Instr), decode bytes = .ok i → bytes.head? = (encode i).head?) ∧
  (∀ (b : Byte) (rest rest' : List Byte) (i j : Instr), decode (b :: rest) = .ok i → decode (b :: rest') = .ok j →
    i.opcode = j.opcode ∧ i.cnt = j.cnt)

/-- 30_encoding.md R79 (the spec's decision D6, log 8): first bytes that share a key run the same handler on the same operand bytes, and
differ only in the count. Under two counts every instruction answers next states that agree in every component but `pc`, and `pc` differs
only where both advance, each by its own count; a taken transfer and HLT ignore the count, HLT by the spec's decision D12 (log 7). -/
def Obligations.AliasesDifferOnlyInTheirAdvance : Prop :=
  (∀ (b b' : Byte) (rest : List Byte) (i : Instr) (cnt' : Count), b'.toNat % 64 = b.toNat % 64 → cnt'.val = b'.toNat / 64 →
    decode (b :: rest) = .ok i → decode (b' :: rest) = .ok (i.withCnt cnt')) ∧
  (∀ (i : Instr) (c' : Count) (s : State), ∃ t u, exec i s = .next t ∧ exec (i.withCnt c') s = .next u ∧
    u = { t with pc := u.pc } ∧ (u.pc = t.pc ∨ t.pc = s.pc + 1 + i.cnt.val ∧ u.pc = s.pc + 1 + c'.val)) ∧
  (∀ (c c' : Count) (r : RegIdx) (s : State),
    exec (.hlt c) s = exec (.hlt c') s ∧ exec (.call c r) s = exec (.call c' r) s ∧ exec (.ret c) s = exec (.ret c') s ∧
    exec (.jmp c r) s = exec (.jmp c' r) s ∧
    (s.fl.toNat % 2 = 1 → exec (.jeq c r) s = exec (.jeq c' r) s) ∧
    (s.fl.toNat % 2 = 0 → exec (.jne c r) s = exec (.jne c' r) s))

/-- 30_encoding.md R81, R82 and 40_engine.md R93: exactly the first bytes whose key is not one of the thirteen are rejected, 204 of the
256 (the spec derives the count), and a step that fetches one stops with IllegalInstruction, changing `status` alone (60_exceptions.md
R151; for the byte 0x00 the spec's decision D5, for what is recorded its D18,
for what stays unchanged its D13; log 5). -/
def Obligations.UnregisteredKeysAreIllegal : Prop :=
  (∀ (b : Byte) (rest : List Byte), decode (b :: rest) = .error (.illegalKey b) ↔ b.toNat % 64 ∉ registeredKeys) ∧
  ((List.range 256).filter (fun n => decode [BitVec.ofNat 8 n] = .error (.illegalKey (BitVec.ofNat 8 n)))).length = 204 ∧
  (∀ (s : State) (b : Byte), s.status = .running → s.memRead s.pc = .ok b → b.toNat % 64 ∉ registeredKeys →
    step s = .next (stoppedWith (.illegalInstruction s.pc b) s))

/-- A few words written out from 30_encoding.md R74 to R77, one of each format, decode to what they stand for, and so does an alias of JEQ
with count 3, which R79 and R80 give (the spec's decision D6, log 8). That ADD's selector 0xF9 names R1 is its decision D7 (log 8), that
MUL's two bytes mean nothing its decision D8 (log 11). -/
def Obligations.SampleWordsDecode : Prop :=
  decode [0b00000001] = .ok (.hlt 0) ∧
  decode [0b10000010, 0b00001010, 0b00110011] = .ok (.ldi 2 2 0x33) ∧
  decode [0b01000101, 0b00000111] = .ok (.push 1 7) ∧
  decode [0b01010110, 0b00000011] = .ok (.jne 1 3) ∧
  decode [0b10100000, 0b00000010, 0b11111001] = .ok (.add 2 2 1) ∧
  decode [0b10100010, 0b11111111, 0b11111111] = .ok (.mul 2) ∧
  decode [0b11010101, 0b00000000] = .ok (.jeq 3 0)

/-! ### The step -/

/-- When the bytes at the program counter decode to an instruction, the step is `exec` of it: the meaning sees `pc` at the instruction's
own first byte, and every byte was read before anything was written (40_engine.md R95, R98; the spec's decision D15, log 8). -/
def Obligations.StepRunsTheDecodedInstruction : Prop :=
  ∀ (s : State) (bytes : List Byte) (i : Instr), s.status = .running → bytes.length ≤ 3 →
    (∀ k, (h : k < bytes.length) → s.memRead (s.pc + k) = .ok bytes[k]) → decode bytes = .ok i → step s = exec i s

/-- The word of an opcode-table row placed by `withFetchWord` is the instruction the very next step runs (the model's own interface, log
2, log 3). -/
def Obligations.PlacedWordIsExecutedNext : Prop :=
  ∀ (s : State) (nbits w : Nat) (i : Instr), decodeTableWord nbits w = some i →
    step (s.withFetchWord nbits w) = exec i (s.withFetchWord nbits w) ∧
    SameRegsBut [] s (s.withFetchWord nbits w) ∧ (s.withFetchWord nbits w).fl = s.fl ∧ (s.withFetchWord nbits w).out = s.out

/-- 40_engine.md R90: a step is enabled exactly while RUNNING, whatever the rest of the state; it is then never refused. -/
def Obligations.StepIsEnabledExactlyWhenRunning : Prop :=
  ∀ s : State, (∃ t, step s = .next t) ↔ s.status = .running

/-- 40_engine.md R100: a step that leaves RUNNING ran an HLT or was stopped by a condition; running off the program ends in
IllegalInstruction at a 0x00 byte, or in AddressOutOfRange past the last cell. That 0x00 is illegal is the spec's decision D5, that an
access past the last cell stops its D3, and that a stop changes `status` alone its D13 (log 5; 30_encoding.md R82, 40_engine.md R92,
60_exceptions.md R156). -/
def Obligations.RunsEndOnlyByHltOrStopCondition : Prop :=
  (∀ s t : State, step s = .next t → t.status ≠ .running →
    (t.status = .halted ∧ ∃ b, s.memRead s.pc = .ok b ∧ b.toNat % 64 = 0x01) ∨ ∃ c, t.status = .error c) ∧
  (∀ (s : State) (b : Byte), s.status = .running → s.memRead s.pc = .ok b → b.toNat % 64 = 0x01 →
    ∃ t, step s = .next t ∧ t.status = .halted) ∧
  (∀ s : State, s.status = .running → s.memRead s.pc = .ok 0x00 → step s = .next (stoppedWith (.illegalInstruction s.pc 0x00) s)) ∧
  (∀ s : State, s.status = .running → s.memCells.count ≤ s.pc → step s = .next (stoppedWith (.addressOutOfRange s.pc) s))

/-- 60_exceptions.md R156 (the spec's decision D13, log 5): every stop is precise; the step that stops changes `status` and nothing else,
stack pointer, memory, flags, output and `pc` included. -/
def Obligations.StopsArePrecise : Prop :=
  ∀ (s t : State) (c : StopCondition), step s = .next t → t.status = .error c → t = { s with status := .error c }

/-- 60_exceptions.md R150, R152 to R154 and R157 (the spec's decisions D3, D18, D19, D20, D25; log 5, log 12, log 16): a step stops with a
condition if and only if it is the first of the checks, in R157's order, that fails. An address is reported only if the handler accesses
it and every earlier check passed; ProgramLoadFailure and UnsupportedALUOperation never come from a step. -/
def Obligations.StopConditionsOfAStep : Prop :=
  (∀ (s : State) (c : StopCondition),
    (∃ t, step s = .next t ∧ t.status = .error c) ↔ s.status = .running ∧ FirstFailedCheck s c) ∧
  (∀ (s t : State) (op : AluOp), step s = .next t →
    t.status ≠ .error .programLoadFailure ∧ t.status ≠ .error (.unsupportedALUOperation op))

/-! ### Whole-machine rules -/

/-- 10_state.md R32, R33: a step that changes FL executed a CMP, and a CMP that completes leaves exactly one bit set. -/
def Obligations.OnlyCmpWritesTheFlags : Prop :=
  ∀ s t : State, step s = .next t →
    t.fl = s.fl ∨
    (∃ b, s.memRead s.pc = .ok b ∧ b.toNat % 64 = 0x27) ∧ (t.fl = 0b001 ∨ t.fl = 0b010 ∨ t.fl = 0b100)

/-- 10_state.md R34: the output is append-only, and a step that appends executed a PRN and appended one register's value. That the
register is `o1 mod 8` is the spec's decision D7 (log 8), the shape of the output its D16 (log 18). -/
def Obligations.OnlyPrnAppendsToTheOutput : Prop :=
  ∀ s t : State, step s = .next t →
    t.out = s.out ∨ ∃ b o1, s.memRead s.pc = .ok b ∧ b.toNat % 64 = 0x07 ∧ s.memRead (s.pc + 1) = .ok o1 ∧
      ∃ r : RegIdx, r.val = o1.toNat % 8 ∧ t.out = s.out ++ [s.reg r]

/-- 20_memory.md R54: a step changes at most the one cell at the decremented SP, and only PUSH and CALL change that; no step changes the
number of cells. -/
def Obligations.OnlyPushAndCallWriteMemory : Prop :=
  ∀ s t : State, step s = .next t → SameMemoryBut s.pushAddr s t ∧
    (SameMemory s t ∨ ∃ b, s.memRead s.pc = .ok b ∧ (b.toNat % 64 = 0x05 ∨ b.toNat % 64 = 0x10))

/-- 40_engine.md R99 with 10_state.md R25 and 20_memory.md R54: the frame of every instruction. A register outside its "registers written"
column, a cell it does not store to, the flags unless it is CMP, the output unless it is PRN and the status unless it is HLT or stops keep
their values. That an instruction that stops changes `status` alone is 60_exceptions.md R156, the spec's decision D13 (log 5). -/
def Obligations.EveryInstructionKeepsItsFrame : Prop :=
  ∀ (i : Instr) (s t : State), exec i s = .next t →
    (∀ j, mayWriteReg i j = false → t.reg j = s.reg j) ∧
    (t.memCells = s.memCells ∧ ∀ a, storesTo i s ≠ some a → t.memRead a = s.memRead a) ∧
    (i.opcode ≠ .cmp → t.fl = s.fl) ∧ (i.opcode ≠ .prn → t.out = s.out) ∧
    (i.opcode ≠ .hlt → t.status = s.status ∨ ∃ c, t = stoppedWith c s)

/-- 10_state.md R25, the column "registers read": a register an instruction does not read has no influence on it. Changing it before the
instruction changes nothing after it but that register. -/
def Obligations.UnreadRegistersHaveNoInfluence : Prop :=
  ∀ (i : Instr) (s : State) (j : RegIdx) (v : Byte), mayReadReg i s j = false →
    ∃ t u, exec i s = .next t ∧ exec i (s.setReg j v) = .next u ∧ ∀ w, u.setReg j w = t.setReg j w

/-- The 255-cell machine and the 256-cell machine take the same step wherever the smaller one does not stop with AddressOutOfRange
(20_memory.md R51, R53 and 90_conflicts.md C1; the two sizes are the spec's decision D2, log 1; that an access past the last cell stops
its D3, log 5). -/
def Obligations.SmallerMemoryRefinesTheLarger : Prop :=
  ∀ s t : State, s.memCells = .cells255 → step s = .next t → (∀ a, t.status ≠ .error (.addressOutOfRange a)) →
    step { s with memCells := .cells256 } = .next { t with memCells := .cells256 }

/-- Every step keeps the invariant `State.Inv`: canonical memory of existing cells, `pc` at most `MEM_CELLS` + 3 (10_state.md R28), FL one
of its four values (R33), and a stopped machine's `pc` and recorded info saying what stopped it (R30; 60_exceptions.md R151 to R155). The
bound is the spec's decision D4 (log 7), the other values of these clauses its D10, D12, D13 and D18 (log 5, log 6, log 7). -/
def Obligations.EveryStepKeepsTheInvariant : Prop :=
  ∀ s t : State, s.Inv → step s = .next t → t.Inv

/-- The invariant holds of the machine right after reset, with no program (log 2) and with any program that fits. The values of FL, `pc`
and memory it looks at are the spec's decisions D4, D10 and D11 (log 6, log 7). -/
def Obligations.ResetHasTheInvariant : Prop :=
  State.reset.Inv ∧ ∀ (cells : MemCells) (program : List Byte) (t : State), State.resetWith cells program = .next t → t.Inv

/-- Over any number of steps the output only grows: what was printed stays, in order (10_state.md R34; 70_reset_and_hazards.md R191; the
shape of the output is the spec's decision D16, log 18). -/
def Obligations.OutputOfARunOnlyGrows : Prop :=
  ∀ (k : Nat) (s t : State), Host.Core.run core k s = .next t → ∃ more, t.out = s.out ++ more ∧ more.length ≤ k

/-! ### Memory, stack, flags -/

/-- 20_memory.md R52 and R57 (bounds-checking is the spec's decision D3, log 5): a write to an existing cell is what is read there
afterwards and changes no other cell and no other component; an access past the last cell raises with the unreduced address. -/
def Obligations.ReadReturnsTheLastByteWritten : Prop :=
  (∀ (s : State) (a : Nat) (v : Byte), a < s.memCells.count → ∃ t, s.memWrite a v = .ok t ∧ t.memRead a = .ok v ∧
    SameMemoryBut a s t ∧ t = { s with mem := t.mem } ∧ (s.mem.wf → t.mem.wf)) ∧
  (∀ (s : State) (a : Nat) (v : Byte), s.memCells.count ≤ a →
    s.memRead a = .error (.addressOutOfRange a) ∧ s.memWrite a v = .error (.addressOutOfRange a))

/-- Memories in canonical form that read alike at every address are the same data (the model's own form of memory, 20_memory.md R50). -/
def Obligations.CanonicalMemoriesThatReadAlikeAreEqual : Prop :=
  ∀ m n : Memory, m.wf → n.wf → (∀ a, m.read a = n.read a) → m = n

/-- 43_stack.md R122: PUSH then POP of a register other than R7 restores it and SP, and PUSH Ra then POP Rb copies Ra to Rb (the spec
derives the latter). -/
def Obligations.PushThenPopRestores : Prop :=
  ∀ (c c' : Count) (a b : RegIdx) (s : State), a ≠ 7 → b ≠ 7 → s.pushAddr < s.memCells.count →
    ∃ t u, exec (.push c a) s = .next t ∧ exec (.pop c' b) t = .next u ∧
      u.reg b = s.reg a ∧ u.sp = s.sp ∧ SameRegsBut [b] s u

/-- 44_control_transfer.md R131: after a CMP and any number of steps that execute no CMP the flags are those CMP left, so a JEQ jumps
exactly when the compared registers were equal at comparison time, and a JNE exactly when they differed; and no instruction's outcome
depends on Greater or Less. -/
def Obligations.BranchFollowsTheLastCompare : Prop :=
  (∀ (c c' : Count) (a b r : RegIdx) (s t u : State), exec (.cmp c a b) s = .next t → RunWithoutCmp t u →
    u.fl = t.fl ∧
    (∃ v, exec (.jeq c' r) u = .next v ∧ (s.reg a = s.reg b → v = u.jump (u.reg r)) ∧ (s.reg a ≠ s.reg b → v = u.advance c')) ∧
    (∃ v, exec (.jne c' r) u = .next v ∧ (s.reg a ≠ s.reg b → v = u.jump (u.reg r)) ∧ (s.reg a = s.reg b → v = u.advance c'))) ∧
  (∀ (i : Instr) (s : State) (f : Flags), f.toNat % 2 = s.fl.toNat % 2 →
    ∃ t u, exec i s = .next t ∧ exec i (s.setFl f) = .next u ∧ u.setFl t.fl = t)

/-- 10_state.md R21: whatever byte LDI writes to any of the eight registers is what PRN then reads from it, and what PRN reads from every
other register is what that held before: no register is hardwired, and none is another's alias but SP, which is register 7. -/
def Obligations.EveryRegisterHoldsWhatIsWritten : Prop :=
  (∀ s : State, s.sp = s.reg 7) ∧
  ∀ (c c' : Count) (i : RegIdx) (v : Byte) (s : State), ∃ t, exec (.ldi c i v) s = .next t ∧
    (∃ u, exec (.prn c' i) t = .next u ∧ u.out = s.out ++ [v]) ∧
    ∀ j : RegIdx, j ≠ i → ∃ u, exec (.prn c' j) t = .next u ∧ u.out = s.out ++ [s.reg j]

/-- 20_memory.md R53 and 10_state.md R24 (the spec derives it from its decisions D2, D3; log 1, log 5): with 255 cells PUSH and CALL stop
exactly from SP = 0x00, POP and RET exactly from SP = 0xFF, both on address 0xFF; with 256 cells none of them ever stops on its stack
access, and SP wraps. That a stop changes `status` alone is its D13 (log 5). -/
def Obligations.StackStopsOnlyAtTheMissingCell : Prop :=
  ∀ (c : Count) (r : RegIdx) (s : State), s.pc + 2 ≤ 0xFF →
    (s.memCells = .cells255 →
      (s.sp = 0x00 → exec (.push c r) s = .next (stoppedWith (.addressOutOfRange 0xFF) s) ∧
        exec (.call c r) s = .next (stoppedWith (.addressOutOfRange 0xFF) s)) ∧
      (s.sp ≠ 0x00 → ∃ t u, exec (.push c r) s = .next t ∧ exec (.call c r) s = .next u ∧ t.sp = s.sp - 1 ∧ u.sp = s.sp - 1 ∧
        t.status = s.status ∧ u.status = s.status) ∧
      (s.sp = 0xFF → exec (.pop c r) s = .next (stoppedWith (.addressOutOfRange 0xFF) s) ∧
        exec (.ret c) s = .next (stoppedWith (.addressOutOfRange 0xFF) s)) ∧
      (s.sp ≠ 0xFF → ∃ t u, exec (.pop c r) s = .next t ∧ exec (.ret c) s = .next u ∧ (r ≠ 7 → t.sp = s.sp + 1) ∧
        u.sp = s.sp + 1 ∧ t.status = s.status ∧ u.status = s.status)) ∧
    (s.memCells = .cells256 →
      ∃ t u v w, exec (.push c r) s = .next t ∧ exec (.call c r) s = .next u ∧ exec (.pop c r) s = .next v ∧
        exec (.ret c) s = .next w ∧ t.sp = s.sp - 1 ∧ u.sp = s.sp - 1 ∧ (r ≠ 7 → v.sp = s.sp + 1) ∧ w.sp = s.sp + 1 ∧
        t.status = s.status ∧ u.status = s.status ∧ v.status = s.status ∧ w.status = s.status)

/-- 20_memory.md R62 (derived there): whatever byte PUSH stored is the first byte of what the next step fetches if `pc` then points at its
cell. With an unregistered key that step stops as 40_engine.md R93 and 60_exceptions.md R151 say (0x00 is illegal by the spec's decision
D5, the pair recorded is its D18, `status` alone changes by its D13; log 5); with HLT's it halts there (`pc` stays by its D12, log 7); and bytes that decode, this one first, are run.
The byte PUSH R7 stores is its D14 (log 9). -/
def Obligations.StoredByteIsFetchedByTheNextStep : Prop :=
  ∀ (c : Count) (r : RegIdx) (s t : State) (v : Byte), s.status = .running → s.pushAddr < s.memCells.count →
    exec (.push c r) s = .next t → t.pc = s.pushAddr → v = s.decSp.reg r →
    t.memRead s.pushAddr = .ok v ∧
    (v.toNat % 64 ∉ registeredKeys → step t = .next (stoppedWith (.illegalInstruction s.pushAddr v) t)) ∧
    (v.toNat % 64 = 0x01 → ∃ u, step t = .next u ∧ u.status = .halted ∧ u.pc = s.pushAddr) ∧
    (∀ (rest : List Byte) (i : Instr), rest.length ≤ 2 →
      (∀ k, (h : k < rest.length) → t.memRead (s.pushAddr + 1 + k) = .ok rest[k]) → decode (v :: rest) = .ok i → step t = exec i t)

/-- 45_alu.md R135, R141 and 60_exceptions.md R152 (the spec's decision D19, log 12): the ALU implements exactly CMP, ADD and MUL; asked
for anything else it raises UnsupportedALUOperation. -/
def Obligations.AluImplementsExactlyThreeOperations : Prop :=
  ∀ (op : AluOp) (a b : Byte),
    ((∃ r, alu op a b = .ok r) ↔ op = .cmp ∨ op = .add ∨ op = .mul) ∧
    ((∀ r, alu op a b ≠ .ok r) → alu op a b = .error (.unsupportedALUOperation op))

/-! ### Reset and deposit -/

/-- 70_reset_and_hazards.md R181, R183, R186 (the zero values are the spec's decisions D10, D11; log 6; `pc` = 0 its D4, log 7): reset
with a program that fits leaves every component at its reset value, byte `i` of the program in cell `i` and 0x00 in every other cell. -/
def Obligations.ResetDepositsTheProgram : Prop :=
  ∀ (cells : MemCells) (program : List Byte), 1 ≤ program.length → program.length ≤ cells.count →
    ∃ t, State.resetWith cells program = .next t ∧ t.status = .running ∧ t.pc = 0 ∧ t.sp = 0xF4 ∧
      (∀ j : RegIdx, j ≠ 7 → t.reg j = 0x00) ∧ t.fl = 0b000 ∧ t.out = [] ∧ t.memCells = cells ∧
      ∀ a, a < cells.count → t.memRead a = .ok (program.getD a 0x00)

/-- 70_reset_and_hazards.md R184, R185 (the spec's decision D17; log 2, log 17): with no program the machine is `State.reset`, in
ERROR(ProgramLoadFailure), every other component at the reset value R181 gives it, and no step is enabled; a program longer than memory is
refused. The zeros of R0 to R6, FL and memory are the spec's decisions D10 and D11 (log 6), `pc` = 0 its D4 (log 7), the 255 cells of
`State.reset` its D2 (log 1). -/
def Obligations.NoProgramMeansProgramLoadFailure : Prop :=
  State.resetWith .cells255 [] = .next State.reset ∧
  (∀ cells : MemCells, ∃ t, State.resetWith cells [] = .next t ∧ t.status = .error .programLoadFailure ∧ t.pc = 0 ∧
    t.sp = 0xF4 ∧ (∀ j : RegIdx, j ≠ 7 → t.reg j = 0x00) ∧ t.fl = 0b000 ∧ t.out = [] ∧
    (∀ a, a < cells.count → t.memRead a = .ok 0x00) ∧ ∀ u, step t ≠ .next u) ∧
  (∀ (cells : MemCells) (program : List Byte), cells.count < program.length →
    State.resetWith cells program = .refused (.programTooLong program.length))
end

