-- ==== Sys2Proof/Laws/Decode.lean ====
section
/-!
SUPPORT. What the bit fields are as numbers, what the opcode map answers, and how far the decoder looks.
-/
namespace Sys2Proof

/-! ### Fields as numbers (30_encoding.md R70, R77) -/

theorem keyOf_toNat (b : Byte) : (keyOf b).toNat = b.toNat % 64 := by
  simp [keyOf, BitVec.extractLsb'_toNat]

theorem cntOf_val (b : Byte) : (cntOf b).val = b.toNat / 64 := by
  have := b.isLt
  simp only [cntOf, BitVec.extractLsb'_toNat, Nat.shiftRight_eq_div_pow]
  omega

theorem ridx_val (o : Byte) : (ridx o).val = o.toNat % 8 := by
  simp [ridx, BitVec.extractLsb'_toNat]

theorem keyOf_eq_iff (b : Byte) (k : Key) : keyOf b = k ↔ b.toNat % 64 = k.toNat := by
  rw [← keyOf_toNat, BitVec.toNat_inj]

theorem ridx_eq_ofNat (o : Byte) : ridx o = Fin.ofNat 8 o.toNat := Fin.ext (by simp [ridx_val])

theorem cntOf_eq_ofNat (b : Byte) : cntOf b = Fin.ofNat 4 (b.toNat / 64) := by
  have := b.isLt
  exact Fin.ext (by simp [cntOf_val]; omega)

/-! ### The opcode map -/

@[simp] theorem decodeKey_key (op : Opcode) : decodeKey op.key = some op := by
  cases op <;> rfl

theorem Opcode.mem_all (op : Opcode) : op ∈ Opcode.all := by
  cases op <;> decide

/-- A key has a handler exactly when it is that handler's key: no two handlers share one. -/
theorem decodeKey_eq_some (k : Key) (op : Opcode) : decodeKey k = some op ↔ k = op.key := by
  refine ⟨fun h => ?_, fun h => h ▸ decodeKey_key op⟩
  have hk : (op.key == k) = true := List.find?_some (p := fun op => Opcode.key op == k) h
  exact (beq_iff_eq.1 hk).symm

/-- A key has no handler exactly when it is no handler's key. -/
theorem decodeKey_eq_none (k : Key) : decodeKey k = none ↔ ∀ op : Opcode, k ≠ op.key := by
  refine ⟨fun h op e => ?_, fun h => ?_⟩
  · simp [e] at h
  · exact List.find?_eq_none.2 fun op _ => by simpa using fun e => h op e.symm

/-! ### The first byte and the selectors -/

@[simp] theorem keyOf_firstByte (c : Count) (op : Opcode) : keyOf (firstByte c op) = op.key := by
  revert c; cases op <;> decide

@[simp] theorem cntOf_firstByte (c : Count) (op : Opcode) : cntOf (firstByte c op) = c := by
  revert c; cases op <;> decide

@[simp] theorem ridx_selector (r : RegIdx) : ridx (selector r) = r := by
  revert r; decide

/-- A first byte is its count and its key, and nothing else. -/
theorem firstByte_of_fields (b : Byte) (op : Opcode) (h : keyOf b = op.key) : firstByte (cntOf b) op = b := by
  have hk := congrArg BitVec.toNat h
  rw [keyOf_toNat] at hk
  apply BitVec.eq_of_toNat_eq
  have hc := cntOf_val b
  have hk6 := op.key.isLt
  simp only [firstByte, BitVec.toNat_append, BitVec.toNat_ofFin, hc, ← hk]
  rw [Nat.shiftLeft_eq, ← Nat.shiftLeft_eq, ← Nat.shiftLeft_add_eq_or_of_lt (by omega), Nat.shiftLeft_eq]
  omega

/-! ### What the decoder answers -/

/-- A first byte with a registered key is decoded by its handler's format (30_encoding.md R79). -/
theorem decode_cons_of_key (b : Byte) (rest : List Byte) (op : Opcode) (h : keyOf b = op.key) :
    decode (b :: rest) = decodeOperands op (cntOf b) rest := by
  simp [decode, h]

/-- A first byte without a registered key is rejected by name (30_encoding.md R81). -/
theorem decode_cons_of_no_key (b : Byte) (rest : List Byte) (h : ∀ op : Opcode, keyOf b ≠ op.key) :
    decode (b :: rest) = .error (.illegalKey b) := by
  simp [decode, (decodeKey_eq_none _).2 h]

/-- The instruction decoded has the handler and the count of its first byte. -/
theorem decodeOperands_fields {op : Opcode} {c : Count} {rest : List Byte} {i : Instr}
    (h : decodeOperands op c rest = .ok i) : i.opcode = op ∧ i.cnt = c := by
  cases op <;> rcases rest with _ | ⟨_, _ | ⟨_, _⟩⟩ <;>
    simp [decodeOperands, withOneOperand, withTwoOperands] at h <;> subst h <;> exact ⟨rfl, rfl⟩

/-- Bytes after those a decoded instruction needs are not looked at. -/
theorem decodeOperands_append {op : Opcode} {c : Count} {rest : List Byte} {i : Instr}
    (h : decodeOperands op c rest = .ok i) (more : List Byte) : decodeOperands op c (rest ++ more) = .ok i := by
  cases op <;> rcases rest with _ | ⟨_, _ | ⟨_, _⟩⟩ <;>
    simp_all [decodeOperands, withOneOperand, withTwoOperands]

/-- How many operand bytes a handler reads, whatever its count says (30_encoding.md R72, R74; 40_engine.md R94). -/
def Opcode.reads : Opcode → Nat
  | .hlt | .ret | .mul => 0
  | .push | .pop | .prn | .call | .jmp | .jeq | .jne => 1
  | .ldi | .cmp | .add => 2

/-- A handler whose operands decode found all the bytes it reads. -/
theorem decodeOperands_ok_length {op : Opcode} {c : Count} {rest : List Byte} {i : Instr}
    (h : decodeOperands op c rest = .ok i) : op.reads ≤ rest.length := by
  cases op <;> rcases rest with _ | ⟨_, _ | ⟨_, _⟩⟩ <;>
    simp [decodeOperands, withOneOperand, withTwoOperands] at h <;> simp [Opcode.reads]

/-- Decoding a handler's operands fails on the first of the bytes it reads that is missing. -/
theorem decodeOperands_error {op : Opcode} {c : Count} {rest : List Byte} {e : DecodeError}
    (h : decodeOperands op c rest = .error e) : rest.length < op.reads ∧ e = .operandMissing (rest.length + 1) := by
  cases op <;> rcases rest with _ | ⟨_, _ | ⟨_, _⟩⟩ <;>
    simp [decodeOperands, withOneOperand, withTwoOperands] at h <;> simp [Opcode.reads, ← h]

/-- What decoding answers, in full: no first byte, an unregistered key, or the handler's operands. -/
theorem decode_ok_cases {bytes : List Byte} {i : Instr} (h : decode bytes = .ok i) :
    ∃ b rest, bytes = b :: rest ∧ keyOf b = i.opcode.key ∧ cntOf b = i.cnt ∧ decodeOperands i.opcode (cntOf b) rest = .ok i := by
  match bytes with
  | [] => simp [decode] at h
  | b :: rest =>
    cases hk : decodeKey (keyOf b) with
    | none => simp [decode, hk] at h
    | some op =>
      simp only [decode, hk] at h
      obtain ⟨rfl, hc⟩ := decodeOperands_fields h
      exact ⟨b, rest, rfl, (decodeKey_eq_some _ _).1 hk, hc.symm, h⟩

theorem decode_append {bytes : List Byte} {i : Instr} (h : decode bytes = .ok i) (more : List Byte) :
    decode (bytes ++ more) = .ok i := by
  obtain ⟨b, rest, rfl, hk, -, ho⟩ := decode_ok_cases h
  rw [List.cons_append, decode_cons_of_key _ _ _ hk]
  exact decodeOperands_append ho more

/-- The decoder looks at three bytes at most (30_encoding.md R72). -/
theorem decode_take_three (bytes : List Byte) : decode (bytes.take 3) = decode bytes := by
  rcases bytes with _ | ⟨b, _ | ⟨o1, _ | ⟨o2, rest⟩⟩⟩ <;> rfl

/-- Why a byte string is no instruction, in full. -/
theorem decode_error_cases {bytes : List Byte} {e : DecodeError} (h : decode bytes = .error e) :
    (bytes = [] ∧ e = .noBytes) ∨
    (∃ b rest, bytes = b :: rest ∧ (∀ op : Opcode, keyOf b ≠ op.key) ∧ e = .illegalKey b) ∨
    (∃ b rest, bytes = b :: rest ∧ ∃ op : Opcode, keyOf b = op.key ∧ rest.length < op.reads ∧
      e = .operandMissing (rest.length + 1)) := by
  match bytes with
  | [] => simp [decode] at h; simp [h]
  | b :: rest =>
    cases hk : decodeKey (keyOf b) with
    | none =>
      simp only [decode, hk, Except.error.injEq] at h
      exact .inr (.inl ⟨b, rest, rfl, (decodeKey_eq_none _).1 hk, h.symm⟩)
    | some op =>
      simp only [decode, hk] at h
      exact .inr (.inr ⟨b, rest, rfl, op, (decodeKey_eq_some _ _).1 hk, decodeOperands_error h⟩)

end Sys2Proof
end

