-- ==== Sys2Proof/Laws/State.lean ====
section
/-!
SUPPORT. One lemma per field per update of State, each true by unfolding, and what an update does to a register and to a memory read.
-/
namespace Sys2Proof.Machine

/-! ### setReg -/

@[simp] theorem State.setReg_mem (s : State) (i : RegIdx) (v : Byte) : (s.setReg i v).mem = s.mem := rfl
@[simp] theorem State.setReg_x (s : State) (i : RegIdx) (v : Byte) : (s.setReg i v).x = s.x.set i.val v i.isLt := rfl
@[simp] theorem State.setReg_pc (s : State) (i : RegIdx) (v : Byte) : (s.setReg i v).pc = s.pc := rfl
@[simp] theorem State.setReg_fl (s : State) (i : RegIdx) (v : Byte) : (s.setReg i v).fl = s.fl := rfl
@[simp] theorem State.setReg_status (s : State) (i : RegIdx) (v : Byte) : (s.setReg i v).status = s.status := rfl
@[simp] theorem State.setReg_out (s : State) (i : RegIdx) (v : Byte) : (s.setReg i v).out = s.out := rfl
@[simp] theorem State.setReg_memCells (s : State) (i : RegIdx) (v : Byte) : (s.setReg i v).memCells = s.memCells := rfl

/-! ### setPc -/

@[simp] theorem State.setPc_mem (s : State) (t : Nat) : (s.setPc t).mem = s.mem := rfl
@[simp] theorem State.setPc_x (s : State) (t : Nat) : (s.setPc t).x = s.x := rfl
@[simp] theorem State.setPc_pc (s : State) (t : Nat) : (s.setPc t).pc = t := rfl
@[simp] theorem State.setPc_fl (s : State) (t : Nat) : (s.setPc t).fl = s.fl := rfl
@[simp] theorem State.setPc_status (s : State) (t : Nat) : (s.setPc t).status = s.status := rfl
@[simp] theorem State.setPc_out (s : State) (t : Nat) : (s.setPc t).out = s.out := rfl
@[simp] theorem State.setPc_memCells (s : State) (t : Nat) : (s.setPc t).memCells = s.memCells := rfl

/-! ### setFl -/

@[simp] theorem State.setFl_mem (s : State) (v : Flags) : (s.setFl v).mem = s.mem := rfl
@[simp] theorem State.setFl_x (s : State) (v : Flags) : (s.setFl v).x = s.x := rfl
@[simp] theorem State.setFl_pc (s : State) (v : Flags) : (s.setFl v).pc = s.pc := rfl
@[simp] theorem State.setFl_fl (s : State) (v : Flags) : (s.setFl v).fl = v := rfl
@[simp] theorem State.setFl_status (s : State) (v : Flags) : (s.setFl v).status = s.status := rfl
@[simp] theorem State.setFl_out (s : State) (v : Flags) : (s.setFl v).out = s.out := rfl
@[simp] theorem State.setFl_memCells (s : State) (v : Flags) : (s.setFl v).memCells = s.memCells := rfl

/-! ### emit -/

@[simp] theorem State.emit_mem (s : State) (v : Byte) : (s.emit v).mem = s.mem := rfl
@[simp] theorem State.emit_x (s : State) (v : Byte) : (s.emit v).x = s.x := rfl
@[simp] theorem State.emit_pc (s : State) (v : Byte) : (s.emit v).pc = s.pc := rfl
@[simp] theorem State.emit_fl (s : State) (v : Byte) : (s.emit v).fl = s.fl := rfl
@[simp] theorem State.emit_status (s : State) (v : Byte) : (s.emit v).status = s.status := rfl
@[simp] theorem State.emit_out (s : State) (v : Byte) : (s.emit v).out = s.out ++ [v] := rfl
@[simp] theorem State.emit_memCells (s : State) (v : Byte) : (s.emit v).memCells = s.memCells := rfl

/-! ### setStatus -/

@[simp] theorem State.setStatus_mem (s : State) (v : Status) : (s.setStatus v).mem = s.mem := rfl
@[simp] theorem State.setStatus_x (s : State) (v : Status) : (s.setStatus v).x = s.x := rfl
@[simp] theorem State.setStatus_pc (s : State) (v : Status) : (s.setStatus v).pc = s.pc := rfl
@[simp] theorem State.setStatus_fl (s : State) (v : Status) : (s.setStatus v).fl = s.fl := rfl
@[simp] theorem State.setStatus_status (s : State) (v : Status) : (s.setStatus v).status = v := rfl
@[simp] theorem State.setStatus_out (s : State) (v : Status) : (s.setStatus v).out = s.out := rfl
@[simp] theorem State.setStatus_memCells (s : State) (v : Status) : (s.setStatus v).memCells = s.memCells := rfl

/-! ### setMem -/

@[simp] theorem State.setMem_mem (s : State) (m : Memory) : (s.setMem m).mem = m := rfl
@[simp] theorem State.setMem_x (s : State) (m : Memory) : (s.setMem m).x = s.x := rfl
@[simp] theorem State.setMem_pc (s : State) (m : Memory) : (s.setMem m).pc = s.pc := rfl
@[simp] theorem State.setMem_fl (s : State) (m : Memory) : (s.setMem m).fl = s.fl := rfl
@[simp] theorem State.setMem_status (s : State) (m : Memory) : (s.setMem m).status = s.status := rfl
@[simp] theorem State.setMem_out (s : State) (m : Memory) : (s.setMem m).out = s.out := rfl
@[simp] theorem State.setMem_memCells (s : State) (m : Memory) : (s.setMem m).memCells = s.memCells := rfl

/-! ### advance -/

@[simp] theorem State.advance_mem (s : State) (c : Count) : (s.advance c).mem = s.mem := rfl
@[simp] theorem State.advance_x (s : State) (c : Count) : (s.advance c).x = s.x := rfl
@[simp] theorem State.advance_pc (s : State) (c : Count) : (s.advance c).pc = s.pc + 1 + c.val := rfl
@[simp] theorem State.advance_fl (s : State) (c : Count) : (s.advance c).fl = s.fl := rfl
@[simp] theorem State.advance_status (s : State) (c : Count) : (s.advance c).status = s.status := rfl
@[simp] theorem State.advance_out (s : State) (c : Count) : (s.advance c).out = s.out := rfl
@[simp] theorem State.advance_memCells (s : State) (c : Count) : (s.advance c).memCells = s.memCells := rfl

/-! ### jump -/

@[simp] theorem State.jump_mem (s : State) (b : Byte) : (s.jump b).mem = s.mem := rfl
@[simp] theorem State.jump_x (s : State) (b : Byte) : (s.jump b).x = s.x := rfl
@[simp] theorem State.jump_pc (s : State) (b : Byte) : (s.jump b).pc = b.toNat := rfl
@[simp] theorem State.jump_fl (s : State) (b : Byte) : (s.jump b).fl = s.fl := rfl
@[simp] theorem State.jump_status (s : State) (b : Byte) : (s.jump b).status = s.status := rfl
@[simp] theorem State.jump_out (s : State) (b : Byte) : (s.jump b).out = s.out := rfl
@[simp] theorem State.jump_memCells (s : State) (b : Byte) : (s.jump b).memCells = s.memCells := rfl

/-! ### decSp -/

@[simp] theorem State.decSp_mem (s : State) : (s.decSp).mem = s.mem := rfl
@[simp] theorem State.decSp_x (s : State) : (s.decSp).x = s.x.set spIndex.val (s.sp - 1) spIndex.isLt := rfl
@[simp] theorem State.decSp_pc (s : State) : (s.decSp).pc = s.pc := rfl
@[simp] theorem State.decSp_fl (s : State) : (s.decSp).fl = s.fl := rfl
@[simp] theorem State.decSp_status (s : State) : (s.decSp).status = s.status := rfl
@[simp] theorem State.decSp_out (s : State) : (s.decSp).out = s.out := rfl
@[simp] theorem State.decSp_memCells (s : State) : (s.decSp).memCells = s.memCells := rfl

/-! ### incSp -/

@[simp] theorem State.incSp_mem (s : State) : (s.incSp).mem = s.mem := rfl
@[simp] theorem State.incSp_x (s : State) : (s.incSp).x = s.x.set spIndex.val (s.sp + 1) spIndex.isLt := rfl
@[simp] theorem State.incSp_pc (s : State) : (s.incSp).pc = s.pc := rfl
@[simp] theorem State.incSp_fl (s : State) : (s.incSp).fl = s.fl := rfl
@[simp] theorem State.incSp_status (s : State) : (s.incSp).status = s.status := rfl
@[simp] theorem State.incSp_out (s : State) : (s.incSp).out = s.out := rfl
@[simp] theorem State.incSp_memCells (s : State) : (s.incSp).memCells = s.memCells := rfl

/-! ### Registers -/

/-- Reading a register after writing one: there is no hardwired register (10_state.md R21). -/
theorem State.reg_setReg (s : State) (i j : RegIdx) (v : Byte) :
    (s.setReg i v).reg j = if i = j then v else s.reg j := by
  simp only [State.reg, State.setReg, Vector.get_eq_getElem, Vector.getElem_set, Fin.ext_iff]

@[simp] theorem State.reg_setReg_self (s : State) (i : RegIdx) (v : Byte) : (s.setReg i v).reg i = v := by
  simp [State.reg_setReg]

theorem State.reg_setReg_of_ne (s : State) {i j : RegIdx} (v : Byte) (h : j ≠ i) : (s.setReg i v).reg j = s.reg j := by
  simp [State.reg_setReg, Ne.symm h]

/-- The registers are read from the register file alone. -/
theorem State.reg_congr {s t : State} (h : t.x = s.x) (j : RegIdx) : t.reg j = s.reg j := by
  simp [State.reg, h]

/-- Two states with the same registers have the same register file. -/
theorem State.x_ext {s t : State} (h : ∀ j, t.reg j = s.reg j) : t.x = s.x :=
  Vector.ext fun i hi => h ⟨i, hi⟩

@[simp] theorem State.reg_setPc (s : State) (t : Nat) (j : RegIdx) : (s.setPc t).reg j = s.reg j := rfl
@[simp] theorem State.reg_setFl (s : State) (v : Flags) (j : RegIdx) : (s.setFl v).reg j = s.reg j := rfl
@[simp] theorem State.reg_emit (s : State) (v : Byte) (j : RegIdx) : (s.emit v).reg j = s.reg j := rfl
@[simp] theorem State.reg_setStatus (s : State) (v : Status) (j : RegIdx) : (s.setStatus v).reg j = s.reg j := rfl
@[simp] theorem State.reg_setMem (s : State) (m : Memory) (j : RegIdx) : (s.setMem m).reg j = s.reg j := rfl
@[simp] theorem State.reg_advance (s : State) (c : Count) (j : RegIdx) : (s.advance c).reg j = s.reg j := rfl
@[simp] theorem State.reg_jump (s : State) (b : Byte) (j : RegIdx) : (s.jump b).reg j = s.reg j := rfl

@[simp] theorem State.reg_decSp (s : State) (j : RegIdx) : s.decSp.reg j = if j = spIndex then s.sp - 1 else s.reg j := by
  simp [State.decSp, State.reg_setReg, eq_comm]

@[simp] theorem State.reg_incSp (s : State) (j : RegIdx) : s.incSp.reg j = if j = spIndex then s.sp + 1 else s.reg j := by
  simp [State.incSp, State.reg_setReg, eq_comm]

/-- Writing the same register twice leaves the later value. -/
theorem State.setReg_setReg (s : State) (i : RegIdx) (v w : Byte) : (s.setReg i v).setReg i w = s.setReg i w := by
  simp [State.setReg]

/-- Writes to different registers commute. -/
theorem State.setReg_comm (s : State) {i j : RegIdx} (v w : Byte) (h : i ≠ j) :
    (s.setReg i v).setReg j w = (s.setReg j w).setReg i v := by
  have hv : (i : Nat) ≠ j := fun e => h (Fin.ext e)
  simp [State.setReg, Vector.set_comm _ _ hv]

/-! ### The stack pointer -/

theorem State.sp_eq (s : State) : s.sp = s.reg spIndex := rfl
@[simp] theorem State.sp_setPc (s : State) (t : Nat) : (s.setPc t).sp = s.sp := rfl
@[simp] theorem State.sp_setFl (s : State) (v : Flags) : (s.setFl v).sp = s.sp := rfl
@[simp] theorem State.sp_emit (s : State) (v : Byte) : (s.emit v).sp = s.sp := rfl
@[simp] theorem State.sp_setStatus (s : State) (v : Status) : (s.setStatus v).sp = s.sp := rfl
@[simp] theorem State.sp_setMem (s : State) (m : Memory) : (s.setMem m).sp = s.sp := rfl
@[simp] theorem State.sp_advance (s : State) (c : Count) : (s.advance c).sp = s.sp := rfl
@[simp] theorem State.sp_jump (s : State) (b : Byte) : (s.jump b).sp = s.sp := rfl
@[simp] theorem State.sp_decSp (s : State) : s.decSp.sp = s.sp - 1 := by simp [State.sp_eq]
@[simp] theorem State.sp_incSp (s : State) : s.incSp.sp = s.sp + 1 := by simp [State.sp_eq]
theorem State.sp_setReg_of_ne (s : State) {i : RegIdx} (v : Byte) (h : i ≠ 7) : (s.setReg i v).sp = s.sp :=
  State.reg_setReg_of_ne s v (Ne.symm h)
@[simp] theorem State.sp_setReg_spIndex (s : State) (v : Byte) : (s.setReg spIndex v).sp = v := by simp [State.sp_eq]

/-- Two states that agree in every component, the registers one by one, are equal. -/
theorem State.ext_regs {s t : State} (hm : s.mem = t.mem) (hx : ∀ j, s.reg j = t.reg j) (hp : s.pc = t.pc) (hf : s.fl = t.fl)
    (hs : s.status = t.status) (ho : s.out = t.out) (hc : s.memCells = t.memCells) : s = t := by
  have := State.x_ext hx
  cases s; cases t; simp_all

/-! ### Memory reads -/

/-- What a memory read answers depends on the cells and their number alone. -/
theorem State.memRead_congr {s t : State} (hm : t.mem = s.mem) (hc : t.memCells = s.memCells) (a : Nat) :
    t.memRead a = s.memRead a := by
  simp [State.memRead, hm, hc]

@[simp] theorem State.memRead_setReg (s : State) (i : RegIdx) (v : Byte) (a : Nat) : (s.setReg i v).memRead a = s.memRead a := rfl
@[simp] theorem State.memRead_setPc (s : State) (t : Nat) (a : Nat) : (s.setPc t).memRead a = s.memRead a := rfl
@[simp] theorem State.memRead_setFl (s : State) (v : Flags) (a : Nat) : (s.setFl v).memRead a = s.memRead a := rfl
@[simp] theorem State.memRead_emit (s : State) (v : Byte) (a : Nat) : (s.emit v).memRead a = s.memRead a := rfl
@[simp] theorem State.memRead_setStatus (s : State) (v : Status) (a : Nat) : (s.setStatus v).memRead a = s.memRead a := rfl
@[simp] theorem State.memRead_advance (s : State) (c : Count) (a : Nat) : (s.advance c).memRead a = s.memRead a := rfl
@[simp] theorem State.memRead_jump (s : State) (b : Byte) (a : Nat) : (s.jump b).memRead a = s.memRead a := rfl
@[simp] theorem State.memRead_decSp (s : State) (a : Nat) : (s.decSp).memRead a = s.memRead a := rfl
@[simp] theorem State.memRead_incSp (s : State) (a : Nat) : (s.incSp).memRead a = s.memRead a := rfl

end Sys2Proof.Machine
end

