-- ==== Sys2Proof/Laws/Memory.lean ====
section
/-!
SUPPORT. The laws of memory: a read after a write, the canonical form and its preservation, and that canonical memories with equal
reads are equal data.
-/
namespace Sys2Proof.Machine

/-! ### Reading what an operation left -/

theorem Memory.read_erase (m : Memory) (a b : Nat) :
    (m.erase a).read b = if b = a then Memory.unlisted else m.read b := by
  induction m with
  | nil => simp [Memory.erase, Memory.read]
  | cons c rest ih =>
    simp only [Memory.erase] at ih
    by_cases hc : c.1 = a <;> by_cases hb : c.1 = b <;>
      simp_all [Memory.erase, Memory.read]

theorem Memory.read_insert (m : Memory) (a b : Nat) (v : Byte) (h : ∀ c ∈ m, c.1 ≠ a) :
    (m.insert a v).read b = if b = a then v else m.read b := by
  induction m with
  | nil => simp [Memory.insert, Memory.read, eq_comm (a := a)]
  | cons c rest ih =>
    have hc : c.1 ≠ a := h c (by simp)
    have ih := ih fun d hd => h d (by simp [hd])
    unfold Memory.insert
    split <;> grind [Memory.read]

theorem Memory.erase_fresh (m : Memory) (a : Nat) : ∀ c ∈ m.erase a, c.1 ≠ a := by
  simp [Memory.erase]

/-- A read after a write: the written byte there, the old byte elsewhere (20_memory.md R57). It holds for every listing. -/
theorem Memory.read_write (m : Memory) (a b : Nat) (v : Byte) :
    (m.write a v).read b = if b = a then v else m.read b := by
  unfold Memory.write
  split
  · rw [Memory.read_erase]; simp_all
  · rw [Memory.read_insert _ _ _ _ (m.erase_fresh a), Memory.read_erase]
    split <;> simp_all

theorem Memory.read_writeBytes (m : Memory) (a b : Nat) (bytes : List Byte) :
    (m.writeBytes a bytes).read b = if h : a ≤ b ∧ b < a + bytes.length then bytes[b - a] else m.read b := by
  induction bytes generalizing m a with
  | nil => simp [Memory.writeBytes]
  | cons v vs ih =>
    rw [Memory.writeBytes, ih, Memory.read_write]
    rcases Nat.lt_trichotomy b a with h | h | h
    · simp [show ¬ a ≤ b by omega, show ¬ a + 1 ≤ b by omega, show b ≠ a by omega]
    · subst h; simp
    · obtain ⟨d, rfl⟩ : ∃ d, b = a + 1 + d := ⟨b - a - 1, by omega⟩
      have e : a + 1 + d - a = d + 1 := by omega
      by_cases hd : d < vs.length
      · simp [e, hd, show a + 1 + d < a + (vs.length + 1) by omega, show a ≤ a + 1 + d by omega]
      · simp [hd, show ¬ a + 1 + d < a + (vs.length + 1) by omega, show a + 1 + d ≠ a by omega]

/-! ### The canonical form -/

theorem Memory.mem_insert (m : Memory) (a : Nat) (v : Byte) (c : Host.Cell) :
    c ∈ m.insert a v ↔ c = (a, v) ∨ c ∈ m := by
  induction m with
  | nil => simp [Memory.insert]
  | cons d rest ih => unfold Memory.insert; split <;> simp [ih]; tauto

theorem Memory.wf_nil : Memory.wf [] := by simp [Memory.wf]

theorem Memory.wf_erase {m : Memory} (h : m.wf) (a : Nat) : (m.erase a).wf :=
  ⟨h.1.sublist List.filter_sublist, fun c hc => h.2 c (List.mem_of_mem_filter hc)⟩

theorem Memory.wf_insert {m : Memory} (h : m.wf) {a : Nat} {v : Byte} (hf : ∀ c ∈ m, c.1 ≠ a) (hv : v ≠ Memory.unlisted) :
    (m.insert a v).wf := by
  refine ⟨?_, fun c hc => ?_⟩
  · have hs := h.1
    clear h
    induction m with
    | nil => simp [Memory.insert]
    | cons d rest ih =>
      have hd : d.1 ≠ a := hf d (by simp)
      rw [List.pairwise_cons] at hs
      unfold Memory.insert
      split
      · rename_i hlt
        refine List.pairwise_cons.2 ⟨fun c hc => ?_, List.pairwise_cons.2 hs⟩
        rcases List.mem_cons.1 hc with rfl | hc
        · exact hlt
        · exact Nat.lt_trans hlt (hs.1 c hc)
      · refine List.pairwise_cons.2 ⟨fun c hc => ?_, ih (fun c hc => hf c (by simp [hc])) hs.2⟩
        rcases (Memory.mem_insert _ _ _ _).1 hc with rfl | hc
        · show d.1 < a
          omega
        · exact hs.1 c hc
  · rcases (Memory.mem_insert _ _ _ _).1 hc with rfl | hc
    · exact hv
    · exact h.2 c hc

/-- Every write keeps the canonical form. -/
theorem Memory.wf_write {m : Memory} (h : m.wf) (a : Nat) (v : Byte) : (m.write a v).wf := by
  unfold Memory.write
  split
  · exact Memory.wf_erase h a
  · exact Memory.wf_insert (Memory.wf_erase h a) (m.erase_fresh a) ‹_›

/-- The deposit of bytes keeps the canonical form. -/
theorem Memory.wf_writeBytes {m : Memory} (h : m.wf) (a : Nat) (bytes : List Byte) : (m.writeBytes a bytes).wf := by
  induction bytes generalizing m a with
  | nil => exact h
  | cons v vs ih => exact ih (Memory.wf_write h a v) (a + 1)

/-- A write lists no address but its own and those listed before. -/
theorem Memory.mem_write {m : Memory} {a : Nat} {v : Byte} {c : Host.Cell} (h : c ∈ m.write a v) : c.1 = a ∨ c ∈ m := by
  unfold Memory.write at h
  split at h
  · exact .inr (List.mem_of_mem_filter h)
  · rcases (Memory.mem_insert _ _ _ _).1 h with rfl | h
    · exact .inl rfl
    · exact .inr (List.mem_of_mem_filter h)

/-- The deposit lists no address but its own and those listed before. -/
theorem Memory.mem_writeBytes {m : Memory} {a : Nat} {bytes : List Byte} {c : Host.Cell} (h : c ∈ m.writeBytes a bytes) :
    (a ≤ c.1 ∧ c.1 < a + bytes.length) ∨ c ∈ m := by
  induction bytes generalizing m a with
  | nil => exact .inr h
  | cons v vs ih =>
    rw [List.length_cons]
    rcases ih h with h | h
    · exact .inl (by omega)
    · rcases Memory.mem_write h with h | h
      · exact .inl (by omega)
      · exact .inr h

/-- A cell of a sorted listing is what its address reads as. -/
theorem Memory.read_of_mem {m : Memory} (h : m.Pairwise (fun c d => c.1 < d.1)) {c : Host.Cell} (hc : c ∈ m) :
    m.read c.1 = c.2 := by
  induction m with
  | nil => simp at hc
  | cons d rest ih =>
    rw [List.pairwise_cons] at h
    rcases List.mem_cons.1 hc with rfl | hc
    · simp [Memory.read]
    · have := h.1 c hc
      simp [Memory.read, show d.1 ≠ c.1 by omega, ih h.2 hc]

/-- A byte that differs from what an unlisted cell holds is listed. -/
theorem Memory.mem_of_read {m : Memory} {a : Nat} (h : m.read a ≠ Memory.unlisted) : (a, m.read a) ∈ m := by
  induction m with
  | nil => simp [Memory.read] at h
  | cons d rest ih =>
    by_cases hd : d.1 = a
    · subst hd; simp [Memory.read]
    · simp only [Memory.read, hd, if_false] at h ⊢
      exact List.mem_cons_of_mem _ (ih h)

/-- The cells of a canonical memory are exactly the addresses that do not hold the unlisted value. -/
theorem Memory.mem_iff {m : Memory} (h : m.wf) (c : Host.Cell) : c ∈ m ↔ m.read c.1 = c.2 ∧ c.2 ≠ Memory.unlisted := by
  refine ⟨fun hc => ⟨Memory.read_of_mem h.1 hc, h.2 c hc⟩, fun ⟨hr, hv⟩ => ?_⟩
  have := Memory.mem_of_read (m := m) (a := c.1) (hr ▸ hv)
  rwa [hr] at this

/-! ### Bounds-checked accesses -/

/-- A read answers the cell's byte exactly where there is a cell (20_memory.md R52). -/
theorem State.memRead_ok (s : State) (a : Nat) (b : Byte) :
    s.memRead a = .ok b ↔ a < s.memCells.count ∧ s.mem.read a = b := by
  unfold State.memRead
  split <;> simp <;> omega

/-- A read raises exactly where there is no cell, and it raises AddressOutOfRange with the address (20_memory.md R52). -/
theorem State.memRead_error (s : State) (a : Nat) (c : StopCondition) :
    s.memRead a = .error c ↔ s.memCells.count ≤ a ∧ c = .addressOutOfRange a := by
  unfold State.memRead
  split <;> simp <;> grind

/-- A write takes place exactly where there is a cell (20_memory.md R52). -/
theorem State.memWrite_ok (s t : State) (a : Nat) (v : Byte) :
    s.memWrite a v = .ok t ↔ a < s.memCells.count ∧ t = s.setMem (s.mem.write a v) := by
  unfold State.memWrite
  split <;> simp <;> grind

/-- A write raises exactly where there is no cell (20_memory.md R52). -/
theorem State.memWrite_error (s : State) (a : Nat) (v : Byte) (c : StopCondition) :
    s.memWrite a v = .error c ↔ s.memCells.count ≤ a ∧ c = .addressOutOfRange a := by
  unfold State.memWrite
  split <;> simp <;> grind

/-- A read after a store into an existing cell. -/
theorem State.memRead_setMem_write (s : State) {a : Nat} (v : Byte) (h : a < s.memCells.count) (b : Nat) :
    (s.setMem (s.mem.write a v)).memRead b = if b = a then .ok v else s.memRead b := by
  unfold State.memRead
  simp only [State.setMem_memCells, State.setMem_mem, Memory.read_write]
  split <;> split <;> first | rfl | (exfalso; omega)

end Sys2Proof.Machine
end

