-- ==== Sys2Proof/Laws/Ops.lean ====
section
/-!
SUPPORT. What the shared operations of Machine/Ops.lean, Operands.lean and Control.lean can do: stopping, committing, the window an
instruction is fetched from, the stack accesses and the return address.
-/
namespace Sys2Proof.Machine

/-! ### Stopping (60_exceptions.md R156) -/

theorem raise_eq (c : StopCondition) (s : State) : raise c s = .next (stoppedWith c s) := rfl

@[simp] theorem commit_ok (s t : State) : commit s (.ok t) = .next t := rfl

@[simp] theorem commit_error (s : State) (c : StopCondition) : commit s (.error c) = .next (stoppedWith c s) := rfl

@[simp] theorem stoppedWith_mem (c : StopCondition) (s : State) : (stoppedWith c s).mem = s.mem := rfl
@[simp] theorem stoppedWith_x (c : StopCondition) (s : State) : (stoppedWith c s).x = s.x := rfl
@[simp] theorem stoppedWith_pc (c : StopCondition) (s : State) : (stoppedWith c s).pc = s.pc := rfl
@[simp] theorem stoppedWith_fl (c : StopCondition) (s : State) : (stoppedWith c s).fl = s.fl := rfl
@[simp] theorem stoppedWith_status (c : StopCondition) (s : State) : (stoppedWith c s).status = .error c := rfl
@[simp] theorem stoppedWith_out (c : StopCondition) (s : State) : (stoppedWith c s).out = s.out := rfl
@[simp] theorem stoppedWith_memCells (c : StopCondition) (s : State) : (stoppedWith c s).memCells = s.memCells := rfl
@[simp] theorem reg_stoppedWith (c : StopCondition) (s : State) (j : RegIdx) : (stoppedWith c s).reg j = s.reg j := rfl
@[simp] theorem memRead_stoppedWith (c : StopCondition) (s : State) (a : Nat) : (stoppedWith c s).memRead a = s.memRead a := rfl

/-! ### The fetch window -/

/-- The window holds the bytes of the cells that exist, in ascending order. -/
theorem State.readCells_eq (s : State) (a n : Nat) :
    s.readCells a n = (List.range' a (min n (s.memCells.count - a))).map s.mem.read := by
  induction n generalizing a with
  | zero => simp [State.readCells]
  | succ n ih =>
    unfold State.readCells State.memRead
    by_cases h : s.memCells.count ≤ a
    · simp [h]
    · have e : min (n + 1) (s.memCells.count - a) = min n (s.memCells.count - (a + 1)) + 1 := by omega
      simp [h, e, List.range'_succ, ih]

theorem State.fetchBytes_eq (s : State) :
    s.fetchBytes = (List.range' s.pc (min 3 (s.memCells.count - s.pc))).map s.mem.read := s.readCells_eq s.pc 3

/-- How many bytes the window holds. -/
theorem State.fetchBytes_length (s : State) : s.fetchBytes.length = min 3 (s.memCells.count - s.pc) := by
  simp [State.fetchBytes_eq]

/-- Byte `k` of the window is the byte at `pc + k`. -/
theorem State.memRead_of_fetchBytes (s : State) {k : Nat} (h : k < s.fetchBytes.length) :
    s.memRead (s.pc + k) = .ok (s.fetchBytes[k]) := by
  have hl := s.fetchBytes_length
  rw [State.memRead_ok]
  refine ⟨by omega, ?_⟩
  simp [State.fetchBytes_eq]

/-- The window begins with the byte at `pc`, if with any. -/
theorem State.memRead_of_fetchBytes_cons (s : State) {b : Byte} {rest : List Byte} (h : s.fetchBytes = b :: rest) :
    s.memRead s.pc = .ok b := by
  have hl : 0 < s.fetchBytes.length := by simp [h]
  have := s.memRead_of_fetchBytes hl
  simpa only [h, List.getElem_cons_zero, Nat.add_zero] using this

/-- The window is empty where there is no cell at `pc` (40_engine.md R92). -/
theorem State.fetchBytes_of_error {s : State} {c : StopCondition} (h : s.memRead s.pc = .error c) : s.fetchBytes = [] := by
  simp [State.fetchBytes, State.readCells, h]

/-- The window begins with the byte at `pc`. -/
theorem State.fetchBytes_of_ok {s : State} {b : Byte} (h : s.memRead s.pc = .ok b) :
    s.fetchBytes = b :: s.readCells (s.pc + 1) 2 := by
  simp [State.fetchBytes, State.readCells, h]

/-- The operand bytes of the window, none where there is no cell at `pc + 1` (40_engine.md R94). -/
theorem State.operands_of_error {s : State} {c : StopCondition} (h : s.memRead (s.pc + 1) = .error c) :
    s.readCells (s.pc + 1) 2 = [] := by
  simp [State.readCells, h]

/-- The operand bytes of the window where there is a cell at `pc + 1`. -/
theorem State.operands_of_ok {s : State} {b : Byte} (h : s.memRead (s.pc + 1) = .ok b) :
    s.readCells (s.pc + 1) 2 = b :: s.readCells (s.pc + 2) 1 := by
  simp [State.readCells, h]

theorem State.second_of_error {s : State} {c : StopCondition} (h : s.memRead (s.pc + 2) = .error c) :
    s.readCells (s.pc + 2) 1 = [] := by
  simp [State.readCells, h]

theorem State.second_of_ok {s : State} {b : Byte} (h : s.memRead (s.pc + 2) = .ok b) : s.readCells (s.pc + 2) 1 = [b] := by
  simp [State.readCells, h]

/-- The window of a state whose cells at `pc` hold the given bytes begins with them. -/
theorem State.fetchBytes_of_bytes {s : State} {bytes : List Byte} (hl : bytes.length ≤ 3)
    (h : ∀ k, (hk : k < bytes.length) → s.memRead (s.pc + k) = .ok bytes[k]) :
    ∃ more, s.fetchBytes = bytes ++ more := by
  refine ⟨s.fetchBytes.drop bytes.length, ?_⟩
  have hcells : ∀ k, k < bytes.length → s.pc + k < s.memCells.count := fun k hk => ((s.memRead_ok _ _).1 (h k hk)).1
  have hlen : bytes.length ≤ s.fetchBytes.length := by
    rw [s.fetchBytes_length]
    rcases Nat.eq_zero_or_pos bytes.length with h0 | h0
    · omega
    · have := hcells (bytes.length - 1) (by omega); omega
  have ht : s.fetchBytes.take bytes.length = bytes := by
    apply List.ext_getElem (by simp [hlen])
    intro k h1 h2
    have hk : k < s.fetchBytes.length := by omega
    have := (s.memRead_of_fetchBytes hk).symm.trans (h k h2)
    simpa using this
  conv_lhs => rw [← List.take_append_drop bytes.length s.fetchBytes, ht]

/-! ### The stack (43_stack.md) -/

/-- The address a push stores at, as a number: SP - 1 modulo 256 (10_state.md R24). -/
theorem State.pushAddr_eq (s : State) : s.pushAddr = (s.sp.toNat + 255) % 256 := by
  simp [State.pushAddr, BitVec.toNat_sub]; omega

/-- The address a pop reads at is SP. -/
theorem State.popAddr_eq (s : State) : s.popAddr = s.sp.toNat := rfl

/-- The decremented SP is the address a push stores at. -/
theorem State.decSp_sp_toNat (s : State) : (s.sp - 1).toNat = s.pushAddr := rfl

/-- A push stores into the cell at the decremented SP, where that cell exists. -/
theorem State.pushed_ok (s : State) (v : Byte) (h : s.pushAddr < s.memCells.count) :
    s.pushed v = .ok (s.decSp.setMem (s.mem.write s.pushAddr v)) := by
  simp [State.pushed, State.memWrite_ok, h]

/-- A push raises where the decremented SP names no cell. -/
theorem State.pushed_error (s : State) (v : Byte) (h : s.memCells.count ≤ s.pushAddr) :
    s.pushed v = .error (.addressOutOfRange s.pushAddr) := by
  simp [State.pushed, State.memWrite_error, h]

/-- What a memory read answers after a push. -/
theorem State.memRead_pushed (s : State) (v : Byte) (h : s.pushAddr < s.memCells.count) (a : Nat) :
    (s.decSp.setMem (s.mem.write s.pushAddr v)).memRead a = if a = s.pushAddr then .ok v else s.memRead a :=
  s.decSp.memRead_setMem_write v h a

/-- The byte on top of the stack, where SP names a cell. -/
theorem State.top_ok (s : State) (h : s.popAddr < s.memCells.count) : s.top = .ok (s.mem.read s.popAddr) := by
  simp [State.top, State.memRead_ok, h]

/-- A pop raises where SP names no cell. -/
theorem State.top_error (s : State) (h : s.memCells.count ≤ s.popAddr) : s.top = .error (.addressOutOfRange s.popAddr) := by
  simp [State.top, State.memRead_error, h]

/-! ### CALL's return address (44_control_transfer.md R126) -/

theorem State.returnAddr_ok (s : State) (h : s.pc + 2 ≤ 0xFF) : s.returnAddr = .ok (BitVec.ofNat 8 (s.pc + 2)) := by
  simp [State.returnAddr, show ¬ 0xFF < s.pc + 2 by omega]

theorem State.returnAddr_error (s : State) (h : 0xFF < s.pc + 2) : s.returnAddr = .error (.addressOutOfRange (s.pc + 2)) := by
  simp [State.returnAddr, h]

/-! ### The flags (45_alu.md R136) -/

/-- CMP's result has exactly one bit set. -/
theorem compareFlags_legal (a b : Byte) : compareFlags a b = 0b001 ∨ compareFlags a b = 0b010 ∨ compareFlags a b = 0b100 := by
  unfold compareFlags
  split
  · exact .inl rfl
  · split
    · exact .inr (.inl rfl)
    · exact .inr (.inr rfl)

/-- The Equal bit of CMP's result says whether the bytes are equal (44_control_transfer.md R131). -/
theorem compareFlags_equal (a b : Byte) : (compareFlags a b).getLsbD 0 = decide (a = b) := by
  unfold compareFlags
  split
  · simp [*]; decide
  · split <;> simp [*] <;> decide

end Sys2Proof.Machine
end

