-- ==== Sys2Proof/Laws/Deposit.lean ====
section
/-!
SUPPORT. What the deposit of bytes leaves in memory.
-/
namespace Sys2Proof.Machine

@[simp] theorem State.deposit_mem (s : State) (a : Nat) (bs : List Byte) : (s.deposit a bs).mem = s.mem.writeBytes a bs := rfl
@[simp] theorem State.deposit_x (s : State) (a : Nat) (bs : List Byte) : (s.deposit a bs).x = s.x := rfl
@[simp] theorem State.deposit_pc (s : State) (a : Nat) (bs : List Byte) : (s.deposit a bs).pc = a := rfl
@[simp] theorem State.deposit_fl (s : State) (a : Nat) (bs : List Byte) : (s.deposit a bs).fl = s.fl := rfl
@[simp] theorem State.deposit_status (s : State) (a : Nat) (bs : List Byte) : (s.deposit a bs).status = .running := rfl
@[simp] theorem State.deposit_out (s : State) (a : Nat) (bs : List Byte) : (s.deposit a bs).out = s.out := rfl
@[simp] theorem State.deposit_memCells (s : State) (a : Nat) (bs : List Byte) : (s.deposit a bs).memCells = s.memCells := rfl
@[simp] theorem State.reg_deposit (s : State) (a : Nat) (bs : List Byte) (j : RegIdx) : (s.deposit a bs).reg j = s.reg j := rfl

/-- A deposited byte is in its cell, every other cell holds what it held (70_reset_and_hazards.md R183). -/
theorem State.memRead_deposit (s : State) (base : Nat) (bytes : List Byte) (hfit : base + bytes.length ≤ s.memCells.count) (a : Nat) :
    (s.deposit base bytes).memRead a =
      if h : base ≤ a ∧ a < base + bytes.length then .ok bytes[a - base] else s.memRead a := by
  unfold State.memRead
  simp only [State.deposit_memCells, State.deposit_mem, Memory.read_writeBytes]
  grind

/-- The base that `withFetchWord` stores at leaves room for three bytes. -/
theorem State.fetchBase_fits (s : State) : s.fetchBase + 3 ≤ s.memCells.count := by
  unfold State.fetchBase
  split
  · assumption
  · cases s.memCells <;> decide

/-- The fetch window of a state with three bytes deposited where there is room is those bytes. -/
theorem State.fetchBytes_deposit (s : State) (base : Nat) (bytes : List Byte) (hl : bytes.length = 3)
    (hfit : base + bytes.length ≤ s.memCells.count) : (s.deposit base bytes).fetchBytes = bytes := by
  apply List.ext_getElem
  · rw [State.fetchBytes_length, State.deposit_memCells, State.deposit_pc]
    omega
  · intro k h1 h2
    have h := State.memRead_of_fetchBytes _ h1
    rw [State.deposit_pc, State.memRead_deposit _ _ _ hfit, dif_pos (by omega)] at h
    simpa using (Except.ok.inj h).symm

/-- The fetch window of `withFetchWord`'s state is the word's three bytes. -/
theorem State.fetchBytes_withFetchWord (s : State) (nbits w : Nat) :
    (s.withFetchWord nbits w).fetchBytes = tableBytes nbits w :=
  s.fetchBytes_deposit _ _ rfl s.fetchBase_fits

end Sys2Proof.Machine
end

