-- ==== Sys2Proof/Laws/Exec.lean ====
section
/-!
SUPPORT. One lemma per meaning that says all it can do, so that no later proof unfolds one; and, over all instructions, that `exec`
always answers a next state, which either is the stop of a raised condition or has the status the instruction leaves.
-/
namespace Sys2Proof.Machine

/-! ### Each meaning's answer -/

theorem exec_hlt (c : Count) (s : State) : exec (.hlt c) s = .next (s.setStatus .halted) := rfl

theorem exec_ldi (c : Count) (r : RegIdx) (v : Byte) (s : State) : exec (.ldi c r v) s = .next ((s.setReg r v).advance c) := rfl

theorem exec_prn (c : Count) (r : RegIdx) (s : State) : exec (.prn c r) s = .next ((s.emit (s.reg r)).advance c) := rfl

theorem exec_push (c : Count) (r : RegIdx) (s : State) (h : s.pushAddr < s.memCells.count) :
    exec (.push c r) s = .next ((s.decSp.setMem (s.mem.write s.pushAddr (s.decSp.reg r))).advance c) := by
  simp [exec, execPush, s.pushed_ok _ h, Except.map]

theorem exec_push_stop (c : Count) (r : RegIdx) (s : State) (h : s.memCells.count ≤ s.pushAddr) :
    exec (.push c r) s = .next (stoppedWith (.addressOutOfRange s.pushAddr) s) := by
  simp [exec, execPush, s.pushed_error _ h, Except.map]

theorem exec_pop (c : Count) (r : RegIdx) (s : State) (h : s.popAddr < s.memCells.count) :
    exec (.pop c r) s = .next (((s.setReg r (s.mem.read s.popAddr)).incSp).advance c) := by
  simp [exec, execPop, s.top_ok h, Except.map]

theorem exec_pop_stop (c : Count) (r : RegIdx) (s : State) (h : s.memCells.count ≤ s.popAddr) :
    exec (.pop c r) s = .next (stoppedWith (.addressOutOfRange s.popAddr) s) := by
  simp [exec, execPop, s.top_error h, Except.map]

theorem exec_call (c : Count) (r : RegIdx) (s : State) (hr : s.pc + 2 ≤ 0xFF) (h : s.pushAddr < s.memCells.count) :
    exec (.call c r) s =
      .next ((s.decSp.setMem (s.mem.write s.pushAddr (BitVec.ofNat 8 (s.pc + 2)))).jump (s.decSp.reg r)) := by
  simp only [exec, execCall, s.returnAddr_ok hr, Except.bind, s.pushed_ok _ h, Except.map, commit_ok, State.reg_setMem]

theorem exec_call_stop_return (c : Count) (r : RegIdx) (s : State) (h : 0xFF < s.pc + 2) :
    exec (.call c r) s = .next (stoppedWith (.addressOutOfRange (s.pc + 2)) s) := by
  simp [exec, execCall, s.returnAddr_error h, Except.bind]

theorem exec_call_stop_push (c : Count) (r : RegIdx) (s : State) (hr : s.pc + 2 ≤ 0xFF) (h : s.memCells.count ≤ s.pushAddr) :
    exec (.call c r) s = .next (stoppedWith (.addressOutOfRange s.pushAddr) s) := by
  simp [exec, execCall, s.returnAddr_ok hr, Except.bind, s.pushed_error _ h, Except.map]

theorem exec_ret (c : Count) (s : State) (h : s.popAddr < s.memCells.count) :
    exec (.ret c) s = .next (s.incSp.jump (s.mem.read s.popAddr)) := by
  simp [exec, execRet, s.top_ok h, Except.map]

theorem exec_ret_stop (c : Count) (s : State) (h : s.memCells.count ≤ s.popAddr) :
    exec (.ret c) s = .next (stoppedWith (.addressOutOfRange s.popAddr) s) := by
  simp [exec, execRet, s.top_error h, Except.map]

theorem exec_jmp (c : Count) (r : RegIdx) (s : State) : exec (.jmp c r) s = .next (s.jump (s.reg r)) := rfl

theorem exec_jeq (c : Count) (r : RegIdx) (s : State) :
    exec (.jeq c r) s = .next (if s.equalSet then s.jump (s.reg r) else s.advance c) := rfl

theorem exec_jne (c : Count) (r : RegIdx) (s : State) :
    exec (.jne c r) s = .next (if s.equalSet then s.advance c else s.jump (s.reg r)) := by
  cases h : s.equalSet <;> simp [exec, execJne, State.branch, h]

theorem exec_cmp (c : Count) (a b : RegIdx) (s : State) :
    exec (.cmp c a b) s = .next ((s.setFl (compareFlags (s.reg a) (s.reg b))).advance c) := rfl

theorem exec_add (c : Count) (a b : RegIdx) (s : State) :
    exec (.add c a b) s = .next ((s.setReg a (s.reg a + s.reg b)).advance c) := rfl

theorem exec_mul (c : Count) (s : State) : exec (.mul c) s = .next ((s.setReg 0 (s.reg 0 * s.reg 1)).advance c) := rfl

/-! ### The effect of an instruction that completes -/

/-- The state a handler commits when no statement of it raises. -/
def effect (i : Instr) (s : State) : State :=
  match i with
  | .hlt _ => s.setStatus .halted
  | .ldi c r v => (s.setReg r v).advance c
  | .push c r => (s.decSp.setMem (s.mem.write s.pushAddr (s.decSp.reg r))).advance c
  | .pop c r => ((s.setReg r (s.mem.read s.popAddr)).incSp).advance c
  | .prn c r => (s.emit (s.reg r)).advance c
  | .call _ r => (s.decSp.setMem (s.mem.write s.pushAddr (BitVec.ofNat 8 (s.pc + 2)))).jump (s.decSp.reg r)
  | .ret _ => s.incSp.jump (s.mem.read s.popAddr)
  | .jmp _ r => s.jump (s.reg r)
  | .jeq c r => if s.equalSet then s.jump (s.reg r) else s.advance c
  | .jne c r => if s.equalSet then s.advance c else s.jump (s.reg r)
  | .cmp c a b => (s.setFl (compareFlags (s.reg a) (s.reg b))).advance c
  | .add c a b => (s.setReg a (s.reg a + s.reg b)).advance c
  | .mul c => (s.setReg 0 (s.reg 0 * s.reg 1)).advance c

/-- The address whose check stops a handler, if one does (60_exceptions.md R154, R157). -/
def stopAddr (i : Instr) (s : State) : Option Nat :=
  match i with
  | .push _ _ => if s.memCells.count ≤ s.pushAddr then some s.pushAddr else none
  | .pop _ _ | .ret _ => if s.memCells.count ≤ s.popAddr then some s.popAddr else none
  | .call _ _ =>
    if 0xFF < s.pc + 2 then some (s.pc + 2) else if s.memCells.count ≤ s.pushAddr then some s.pushAddr else none
  | .hlt _ | .ldi _ _ _ | .prn _ _ | .jmp _ _ | .jeq _ _ | .jne _ _ | .cmp _ _ _ | .add _ _ _ | .mul _ => none

/-- The count has no part in what stops a handler (30_encoding.md R79). -/
@[simp] theorem stopAddr_withCnt (n : Count) (i : Instr) (s : State) : stopAddr (i.withCnt n) s = stopAddr i s := by
  cases i <;> rfl

/-- The flags have no part in what stops a handler. -/
@[simp] theorem stopAddr_setFl (i : Instr) (s : State) (f : Flags) : stopAddr i (s.setFl f) = stopAddr i s := by
  cases i <;> rfl

/-- All that `exec` can do: it commits the instruction's effect, or it stops on the address whose check fails. -/
theorem exec_eq (i : Instr) (s : State) :
    exec i s = .next (match stopAddr i s with
      | none => effect i s
      | some a => stoppedWith (.addressOutOfRange a) s) := by
  cases i with
  | push c r =>
    by_cases h : s.memCells.count ≤ s.pushAddr
    · simp [exec_push_stop _ _ _ h, stopAddr, h]
    · simp [exec_push _ _ _ (Nat.lt_of_not_le h), stopAddr, h, effect]
  | pop c r =>
    by_cases h : s.memCells.count ≤ s.popAddr
    · simp [exec_pop_stop _ _ _ h, stopAddr, h]
    · simp [exec_pop _ _ _ (Nat.lt_of_not_le h), stopAddr, h, effect]
  | ret c =>
    by_cases h : s.memCells.count ≤ s.popAddr
    · simp [exec_ret_stop _ _ h, stopAddr, h]
    · simp [exec_ret _ _ (Nat.lt_of_not_le h), stopAddr, h, effect]
  | call c r =>
    by_cases hr : 0xFF < s.pc + 2
    · simp only [exec_call_stop_return _ _ _ hr, stopAddr, hr, if_true]
    · by_cases h : s.memCells.count ≤ s.pushAddr
      · simp only [exec_call_stop_push _ _ _ (Nat.le_of_not_lt hr) h, stopAddr, hr, h, if_false, if_true]
      · simp only [exec_call _ _ _ (Nat.le_of_not_lt hr) (Nat.lt_of_not_le h), stopAddr, hr, h, effect, if_false]
  | jne c r => rw [exec_jne]; rfl
  | _ => rfl

/-- The two ways `exec` ends. -/
theorem exec_cases {i : Instr} {s t : State} (h : exec i s = .next t) :
    (stopAddr i s = none ∧ t = effect i s) ∨ ∃ a, stopAddr i s = some a ∧ t = stoppedWith (.addressOutOfRange a) s := by
  rw [exec_eq] at h
  cases hs : stopAddr i s with
  | none => simp [hs] at h; exact .inl ⟨rfl, h.symm⟩
  | some a => simp [hs] at h; exact .inr ⟨a, rfl, h.symm⟩

/-- A handler stops on an address that names no cell, or on a return address above 0xFF. -/
theorem stopAddr_outside {i : Instr} {s : State} {a : Nat} (h : stopAddr i s = some a) : s.memCells.count ≤ a ∨ 0xFF < a := by
  cases i <;> simp only [stopAddr] at h <;> grind

/-- The parameter `MEM_CELLS` is never written. -/
theorem effect_memCells (i : Instr) (s : State) : (effect i s).memCells = s.memCells := by
  cases i <;> simp [effect] <;> split <;> rfl

/-- A handler that completes leaves the machine RUNNING as it was, but for HLT. -/
theorem effect_status (i : Instr) (s : State) : (effect i s).status = if i.opcode = .hlt then .halted else s.status := by
  cases i <;> simp [effect, Instr.opcode] <;> split <;> rfl

/-- Only CMP writes the flags (10_state.md R32). -/
theorem effect_fl (i : Instr) (s : State) : (effect i s).fl = match i with
    | .cmp _ a b => compareFlags (s.reg a) (s.reg b)
    | _ => s.fl := by
  cases i <;> simp [effect] <;> split <;> rfl

/-- Only PRN writes the output (10_state.md R34). -/
theorem effect_out (i : Instr) (s : State) : (effect i s).out = match i with
    | .prn _ r => s.out ++ [s.reg r]
    | _ => s.out := by
  cases i <;> simp [effect] <;> split <;> rfl

/-- Only PUSH and CALL write memory (20_memory.md R54). -/
theorem effect_mem (i : Instr) (s : State) : (effect i s).mem = match i with
    | .push _ r => s.mem.write s.pushAddr (s.decSp.reg r)
    | .call _ _ => s.mem.write s.pushAddr (BitVec.ofNat 8 (s.pc + 2))
    | _ => s.mem := by
  cases i <;> simp [effect] <;> split <;> rfl

/-- Where `pc` goes: a sequential advance, an 8-bit target, or, for HLT, nowhere (40_engine.md R96). -/
theorem effect_pc (i : Instr) (s : State) :
    (effect i s).pc = s.pc ∨ (effect i s).pc = s.pc + 1 + i.cnt.val ∨ ∃ b : Byte, (effect i s).pc = b.toNat := by
  cases i <;> simp [effect, Instr.cnt] <;> grind [State.advance_pc, State.jump_pc]

/-- Every register an instruction may not write keeps its value (10_state.md R25). -/
theorem effect_reg (i : Instr) (s : State) (j : RegIdx) (h : mayWriteReg i j = false) : (effect i s).reg j = s.reg j := by
  cases i <;> simp only [effect] <;>
    grind [mayWriteReg, spIndex, State.reg_setReg, State.reg_jump, State.reg_advance, State.reg_setMem, State.reg_decSp,
      State.reg_incSp, State.reg_setFl, State.reg_emit, State.reg_setStatus]

end Sys2Proof.Machine
end

