-- ==== Sys2Proof/Laws/PerInstr.lean ====
section
/-!
SUPPORT. Facts about every instruction as syntax, one lemma per constructor: the family EncodeShape.
-/
namespace Sys2Proof.Laws

/-- The encoding of an instruction begins with a first byte that carries its handler's key and its count (30_encoding.md R70), and it
decodes with the handler's operands read from the bytes after that one (R72, R73). -/
def EncodeShape.Statement (i : Instr) : Prop :=
  ∃ b rest, encode i = b :: rest ∧ keyOf b = i.opcode.key ∧ cntOf b = i.cnt ∧ rest.length ≤ 3 ∧
    decode (encode i) = decodeOperands i.opcode i.cnt rest

/-- Each constructor's lemma is this one: the encoder writes every first byte the same way. -/
theorem EncodeShape.of_length (i : Instr) (h : i.operandBytes.length ≤ 3) : EncodeShape.Statement i := by
  refine ⟨firstByte i.cnt i.opcode, i.operandBytes, rfl, keyOf_firstByte _ _, cntOf_firstByte _ _, h, ?_⟩
  rw [encode, decode_cons_of_key _ _ i.opcode (keyOf_firstByte _ _), cntOf_firstByte]

theorem EncodeShape.hlt (cnt : Count) : EncodeShape.Statement (.hlt cnt) :=
  EncodeShape.of_length _ (by simp [Instr.operandBytes])

theorem EncodeShape.ldi (cnt : Count) (r : RegIdx) (imm : Byte) : EncodeShape.Statement (.ldi cnt r imm) :=
  EncodeShape.of_length _ (by simp [Instr.operandBytes])

theorem EncodeShape.push (cnt : Count) (r : RegIdx) : EncodeShape.Statement (.push cnt r) :=
  EncodeShape.of_length _ (by simp [Instr.operandBytes])

theorem EncodeShape.pop (cnt : Count) (r : RegIdx) : EncodeShape.Statement (.pop cnt r) :=
  EncodeShape.of_length _ (by simp [Instr.operandBytes])

theorem EncodeShape.prn (cnt : Count) (r : RegIdx) : EncodeShape.Statement (.prn cnt r) :=
  EncodeShape.of_length _ (by simp [Instr.operandBytes])

theorem EncodeShape.call (cnt : Count) (r : RegIdx) : EncodeShape.Statement (.call cnt r) :=
  EncodeShape.of_length _ (by simp [Instr.operandBytes])

theorem EncodeShape.ret (cnt : Count) : EncodeShape.Statement (.ret cnt) :=
  EncodeShape.of_length _ (by simp [Instr.operandBytes])

theorem EncodeShape.jmp (cnt : Count) (r : RegIdx) : EncodeShape.Statement (.jmp cnt r) :=
  EncodeShape.of_length _ (by simp [Instr.operandBytes])

theorem EncodeShape.jeq (cnt : Count) (r : RegIdx) : EncodeShape.Statement (.jeq cnt r) :=
  EncodeShape.of_length _ (by simp [Instr.operandBytes])

theorem EncodeShape.jne (cnt : Count) (r : RegIdx) : EncodeShape.Statement (.jne cnt r) :=
  EncodeShape.of_length _ (by simp [Instr.operandBytes])

theorem EncodeShape.cmp (cnt : Count) (a b : RegIdx) : EncodeShape.Statement (.cmp cnt a b) :=
  EncodeShape.of_length _ (by simp [Instr.operandBytes])

theorem EncodeShape.add (cnt : Count) (a b : RegIdx) : EncodeShape.Statement (.add cnt a b) :=
  EncodeShape.of_length _ (by simp [Instr.operandBytes])

theorem EncodeShape.mul (cnt : Count) : EncodeShape.Statement (.mul cnt) :=
  EncodeShape.of_length _ (by simp [Instr.operandBytes])

end Sys2Proof.Laws
end

