-- ==== Sys2Proof/Laws/Step.lean ====
section
/-!
SUPPORT. What fetching and a step can do, said once: how a fetch succeeds or stops, and the two ways a step has a next state.
-/
namespace Sys2Proof.Machine

/-- A key is registered exactly when it is some handler's key (30_encoding.md R74, R81). -/
theorem registered_iff (b : Byte) : b.toNat % 64 ∈ registeredKeys ↔ ∃ op : Opcode, keyOf b = op.key := by
  have hk : ∀ op : Opcode, op.key.toNat ∈ registeredKeys := by intro op; cases op <;> decide
  constructor
  · intro h
    have hall : ∀ n ∈ registeredKeys, ∃ op : Opcode, op.key.toNat = n := by
      intro n hn
      have : n ∈ Opcode.all.map (fun op => op.key.toNat) := by
        revert n; decide
      obtain ⟨op, -, e⟩ := List.mem_map.1 this
      exact ⟨op, e⟩
    obtain ⟨op, e⟩ := hall _ h
    exact ⟨op, (keyOf_eq_iff _ _).2 e.symm⟩
  · rintro ⟨op, h⟩
    rw [(keyOf_eq_iff _ _).1 h]
    exact hk op

/-- A fetch that succeeds read a first byte with the instruction's key and count at `pc`, and every operand byte its handler reads
(40_engine.md R92 to R94). -/
theorem fetch_ok {s : State} {i : Instr} (h : s.fetch = .ok i) :
    decode s.fetchBytes = .ok i ∧ s.pc + i.opcode.reads < s.memCells.count ∧
      ∃ b, s.memRead s.pc = .ok b ∧ keyOf b = i.opcode.key ∧ cntOf b = i.cnt := by
  unfold State.fetch at h
  split at h
  · rename_i j hd
    obtain rfl : j = i := by simpa using h
    obtain ⟨b, rest, hb, hk, hc, ho⟩ := decode_ok_cases hd
    have hlen := s.fetchBytes_length
    have hn := decodeOperands_ok_length ho
    rw [hb, List.length_cons] at hlen
    exact ⟨hd, by omega, b, s.memRead_of_fetchBytes_cons hb, hk, hc⟩
  · simp at h

/-- A fetch that fails stops on the first of these that holds: `pc` names no cell, the first byte has no handler, or an operand byte
that its handler reads names no cell, all before it being there (40_engine.md R92 to R94; 60_exceptions.md R157). -/
theorem fetch_error {s : State} {c : StopCondition} (h : s.fetch = .error c) :
    (s.memCells.count ≤ s.pc ∧ c = .addressOutOfRange s.pc) ∨
    (∃ b, s.memRead s.pc = .ok b ∧ (∀ op : Opcode, keyOf b ≠ op.key) ∧ c = .illegalInstruction s.pc b) ∨
    (∃ (b : Byte) (op : Opcode) (k : Nat), s.memRead s.pc = .ok b ∧ keyOf b = op.key ∧ k < op.reads ∧ s.pc + k < s.memCells.count ∧
      s.memCells.count ≤ s.pc + (k + 1) ∧ c = .addressOutOfRange (s.pc + (k + 1))) := by
  unfold State.fetch at h
  split at h
  · simp at h
  · rename_i e hd
    obtain rfl : stopOfDecode s.pc e = c := by simpa using h
    have hlen := s.fetchBytes_length
    rcases decode_error_cases hd with ⟨h0, rfl⟩ | ⟨b, rest, hb, hk, rfl⟩ | ⟨b, rest, hb, op, hk, hn, rfl⟩
    · rw [h0, List.length_nil] at hlen
      exact .inl ⟨by omega, rfl⟩
    · exact .inr (.inl ⟨b, s.memRead_of_fetchBytes_cons hb, hk, rfl⟩)
    · have h2 : op.reads ≤ 2 := by cases op <;> decide
      rw [hb, List.length_cons] at hlen
      exact .inr (.inr ⟨b, op, rest.length, s.memRead_of_fetchBytes_cons hb, hk, hn, by omega, by omega, rfl⟩)

/-- A step from a RUNNING state runs what was fetched (40_engine.md R98). -/
theorem step_of_fetch_ok {s : State} {i : Instr} (hr : s.status = .running) (h : s.fetch = .ok i) : step s = exec i s := by
  simp [step, hr, h]

/-- A step from a RUNNING state whose fetch fails stops (40_engine.md R98). -/
theorem step_of_fetch_error {s : State} {c : StopCondition} (hr : s.status = .running) (h : s.fetch = .error c) :
    step s = .next (stoppedWith c s) := by
  simp [step, hr, h, raise_eq]

/-- A step from a RUNNING state whose bytes decode runs the instruction. -/
theorem step_of_decode {s : State} {i : Instr} (hr : s.status = .running) (h : decode s.fetchBytes = .ok i) :
    step s = exec i s :=
  step_of_fetch_ok hr (by simp [State.fetch, h])

/-- A step from a RUNNING state whose bytes do not decode stops. -/
theorem step_of_decode_error {s : State} {e : DecodeError} (hr : s.status = .running) (h : decode s.fetchBytes = .error e) :
    step s = .next (stoppedWith (stopOfDecode s.pc e) s) :=
  step_of_fetch_error hr (by simp [State.fetch, h])

/-- All that a step with a next state can have done. -/
theorem step_cases {s t : State} (h : step s = .next t) :
    s.status = .running ∧ ((∃ i, s.fetch = .ok i ∧ exec i s = .next t) ∨ ∃ c, s.fetch = .error c ∧ t = stoppedWith c s) := by
  cases hs : s.status with
  | halted => simp [step, hs] at h
  | error c => simp [step, hs] at h
  | running =>
    refine ⟨rfl, ?_⟩
    cases hf : s.fetch with
    | ok i => exact .inl ⟨i, rfl, step_of_fetch_ok hs hf ▸ h⟩
    | error c => rw [step_of_fetch_error hs hf] at h; exact .inr ⟨c, rfl, (Host.Outcome.next.inj h).symm⟩

/-- All that a step with a next state can have done, down to the effects: an instruction completed, or a condition stopped it. -/
theorem step_effect {s t : State} (h : step s = .next t) :
    s.status = .running ∧
      ((∃ i, s.fetch = .ok i ∧ stopAddr i s = none ∧ t = effect i s) ∨
       (∃ i a, s.fetch = .ok i ∧ stopAddr i s = some a ∧ t = stoppedWith (.addressOutOfRange a) s) ∨
       (∃ c, s.fetch = .error c ∧ t = stoppedWith c s)) := by
  obtain ⟨hr, ⟨i, hf, he⟩ | ⟨c, hf, ht⟩⟩ := step_cases h
  · rcases exec_cases he with ⟨hs, ht⟩ | ⟨a, hs, ht⟩
    · exact ⟨hr, .inl ⟨i, hf, hs, ht⟩⟩
    · exact ⟨hr, .inr (.inl ⟨i, a, hf, hs, ht⟩)⟩
  · exact ⟨hr, .inr (.inr ⟨c, hf, ht⟩)⟩

end Sys2Proof.Machine
end

