-- ==== Sys2Proof/WellFormed.lean ====
section
/-!
DEFINITION. Which instructions a WELL-FORMED PROGRAM may contain, in the spec's own sense (00_scope.md R12): a convention on
programs, not a check of the hardware. The machine executes every `Instr`, well-formed or not (30_encoding.md R79; 10_state.md R23),
and no statement about it assumes well-formedness. That register indices lie in 0..7 and counts in 0..3 is carried by the types.
-/
namespace Sys2Proof

/-- The operand count of the canonical first byte (30_encoding.md R74, the high two bits of its "canonical first byte" column; MUL's
is 2, R75). -/
def Instr.canonicalCnt : Instr → Count
  | .hlt _ | .ret _ => 0
  | .push _ _ | .pop _ _ | .prn _ _ | .call _ _ | .jmp _ _ | .jeq _ _ | .jne _ _ => 1
  | .ldi _ _ _ | .cmp _ _ _ | .add _ _ _ | .mul _ => 2

/-- "A well-formed program contains canonical first bytes only" (30_encoding.md R79). -/
def Instr.hasCanonicalCnt (i : Instr) : Bool := i.cnt == i.canonicalCnt

/-- Register 7 "is never treated as a free general register by well-formed programs" (10_state.md R23): it is neither the explicit
operand of PUSH, POP or CALL nor the destination of LDI or ADD (93_implementation_defined.md U13). -/
def Instr.keepsSpReserved : Instr → Bool
  | .ldi _ r _ | .push _ r | .pop _ r | .call _ r | .add _ r _ => r != spIndex
  | .hlt _ | .prn _ _ | .ret _ | .jmp _ _ | .jeq _ _ | .jne _ _ | .cmp _ _ _ | .mul _ => true

/-- An instruction a well-formed program may contain. -/
def Instr.wellFormed (i : Instr) : Bool := i.hasCanonicalCnt && i.keepsSpReserved

end Sys2Proof
end

