-- ==== Sys2Proof/Tests/Slice0.lean ====
section
/-!
SUPPORT. The model's own tests: the words of spec/30_encoding.md written out, vectors of spec/95_test_vectors.md (named in each comment),
the well-formedness smoke tests, and for every statement with hypotheses a witness that meets them, clause by clause.
-/
namespace Sys2Proof.Tests
open Sys2Proof.Machine

/-- The machine with 255 cells and these bytes at `base`, RUNNING at `base`, all else as after reset. -/
def placed (base : Nat) (bytes : List Byte) : State := State.reset.deposit base bytes

/-- The same machine with 256 cells. -/
def placed256 (base : Nat) (bytes : List Byte) : State := { placed base bytes with memCells := .cells256 }

/-- One step has a next state, and that state passes the check. -/
def steps (s : State) (check : State → Bool) : Bool :=
  match step s with
  | .next t => check t
  | .fault _ => false
  | .refused _ => false

/-! ### Well-formedness: an ill-formed term for each check -/

/-- An alias's count is not canonical (R79). -/
theorem test_wellFormed_refuses_alias : (Instr.ldi 0 1 0x08).wellFormed = false ∧ (Instr.ldi 2 1 0x08).wellFormed = true := by decide

/-- R7 as POP's explicit operand is no use a well-formed program makes of it (U13). -/
theorem test_wellFormed_refuses_free_sp : (Instr.pop 1 7).wellFormed = false ∧ (Instr.pop 1 6).wellFormed = true := by decide

/-! ### Decoding: every constructor's word, written out from 30_encoding.md R72, R74, R76, R77 -/

theorem test_decode_hlt : decode [0b00000001] = .ok (.hlt 0) := by decide
theorem test_decode_ldi : decode [0b10000010, 0b00000101, 0b11111110] = .ok (.ldi 2 5 0xFE) := by decide
theorem test_decode_push : decode [0b01000101, 0b00000110] = .ok (.push 1 6) := by decide
theorem test_decode_pop : decode [0b01000110, 0b00000001] = .ok (.pop 1 1) := by decide
theorem test_decode_prn : decode [0b01000111, 0b11111010] = .ok (.prn 1 2) := by decide
theorem test_decode_call : decode [0b01010000, 0b00000100] = .ok (.call 1 4) := by decide
theorem test_decode_ret : decode [0b00010001] = .ok (.ret 0) := by decide
theorem test_decode_jmp : decode [0b01010100, 0b00000010] = .ok (.jmp 1 2) := by decide
theorem test_decode_jeq : decode [0b01010101, 0b00000011] = .ok (.jeq 1 3) := by decide
theorem test_decode_jne : decode [0b01010110, 0b00000111] = .ok (.jne 1 7) := by decide
theorem test_decode_cmp : decode [0b10100111, 0b00001000, 0b00010001] = .ok (.cmp 2 0 1) := by decide
theorem test_decode_add : decode [0b10100000, 0b00000010, 0b00000100] = .ok (.add 2 2 4) := by decide
theorem test_decode_mul : decode [0b10100010, 0b00000101, 0b00000110] = .ok (.mul 2) := by decide

/-- Aliases with count 3 and 0 (R79, R80). -/
theorem test_decode_alias : decode [0b11000111, 0b00000000] = .ok (.prn 3 0) ∧ decode [0b00100010] = .ok (.mul 0) := by decide

/-- Illegal first bytes of vectors E1 to E4. -/
theorem test_decode_illegal : ∀ b ∈ ([0x00, 0x40, 0xFF, 0x03, 0x04, 0x08, 0x12, 0x13, 0x17, 0x21, 0x23, 0x26, 0x28, 0x3F] : List Byte),
    decode [b, 0x00, 0x00] = .error (.illegalKey b) := by decide

/-- An operand byte that the handler reads is missing (R94). -/
theorem test_decode_truncated : decode [0x82, 0x00] = .error (.operandMissing 2) ∧ decode [0x45] = .error (.operandMissing 1) := by
  decide

/-- `MUL` is assembled as `A2 00 01` (R75). -/
theorem test_encode_mul : encode (.mul 2) = [0xA2, 0x00, 0x01] := by decide

/-- Bit 0 of a table word is the least significant bit of the first byte. -/
theorem test_table_word : decodeTableWord 24 0x330A82 = some (.ldi 2 2 0x33) ∧ decodeTableWord 8 0x02 = some (.ldi 0 0 0x00) ∧
    decodeTableWord 8 0x00 = none := by decide

/-- The placed word runs as the first instruction (the LDI of vector L5). -/
theorem test_placed_word_runs : steps (State.reset.withFetchWord 24 0x330A82) (fun t => t.reg 2 == 0x33 && t.pc == 3) = true := by
  decide

/-! ### One step of each instruction (95_test_vectors.md) -/

/-- Y1, and E8's alias. -/
theorem test_hlt : steps (placed 0 [0x01]) (fun t => t.status == .halted && t.pc == 0) = true ∧
    steps (placed 0 [0xC1]) (fun t => t.status == .halted && t.pc == 0) = true := by decide

/-- L5: the selector 0A is masked to 2. -/
theorem test_ldi_masks_selector : steps (placed 0 [0x82, 0x0A, 0x33]) (fun t => t.reg 2 == 0x33 && t.pc == 3) = true := by decide

/-- E9: the alias of LDI with count 0 advances by 1 only. -/
theorem test_ldi_alias : steps (placed 0 [0x02, 0x01, 0x01]) (fun t => t.reg 1 == 0x01 && t.pc == 1) = true := by decide

/-- K3: PUSH R7 stores the decremented SP. -/
theorem test_push_sp : steps (placed 0 [0x45, 0x07]) (fun t => t.sp == 0xF3 && t.mem.read 0xF3 == 0xF3 && t.pc == 2) = true := by decide

/-- K10: a PUSH that overwrites its own operand byte pushes the register it was fetched with. -/
theorem test_push_over_itself :
    steps (((placed 0 [0x45, 0x02]).setReg 7 0x02).setReg 2 0x11) (fun t => t.mem.read 1 == 0x11 && t.sp == 0x01) = true := by decide

/-- K2: the popped cell keeps its value. -/
theorem test_pop : steps ((placed 0 [0x46, 0x01]).deposit 0xF3 [0x05] |>.setPc 0 |>.setReg 7 0xF3)
    (fun t => t.reg 1 == 0x05 && t.sp == 0xF4 && t.mem.read 0xF3 == 0x05 && t.pc == 2) = true := by decide

/-- K4: POP R7 leaves the popped value plus one. -/
theorem test_pop_sp : steps ((placed 0 [0x46, 0x07]).deposit 0xF4 [0x20] |>.setPc 0) (fun t => t.sp == 0x21) = true := by decide

/-- E10: the alias of PRN with count 3. -/
theorem test_prn_alias : steps ((placed 0 [0xC7, 0x00]).setReg 0 0x09) (fun t => t.out == [9] && t.pc == 4) = true := by decide

/-- Y6: the selector FA is masked to 2. -/
theorem test_prn_masks_selector : steps ((placed 0 [0x47, 0xFA]).setReg 2 0x33) (fun t => t.out == [51] && t.pc == 2) = true := by decide

/-- E13: the return address is `pc + 2` even for CALL's alias with count 0. -/
theorem test_call_alias : steps ((placed 0 [0x10, 0x03]).setReg 3 0x44)
    (fun t => t.mem.read 0xF3 == 0x02 && t.sp == 0xF3 && t.pc == 0x44) = true := by decide

/-- T3: CALL R7 jumps to the decremented SP. -/
theorem test_call_sp : steps (placed 0 [0x50, 0x07]) (fun t => t.mem.read 0xF3 == 0x02 && t.pc == 0xF3) = true := by decide

/-- T2. -/
theorem test_ret : steps ((placed 0xF3 [0x12]).deposit 2 [0x11] |>.setReg 7 0xF3) (fun t => t.pc == 0x12 && t.sp == 0xF4) = true := by
  decide

/-- T12: JMP R7 goes to the top of the stack. -/
theorem test_jmp_sp : steps (placed 0 [0x54, 0x07]) (fun t => t.pc == 0xF4) = true := by decide

/-- T20 and T21: JEQ's alias with count 3, taken and not taken. -/
theorem test_jeq_alias :
    steps (((placed 0 [0xD5, 0x00]).setReg 0 0x09).setFl 0b001) (fun t => t.pc == 9) = true ∧
    steps (((placed 0 [0xD5, 0x00]).setReg 0 0x09).setFl 0b100) (fun t => t.pc == 4) = true := by decide

/-- T17 and T18: JNE taken and not taken. -/
theorem test_jne :
    steps (((placed 0x14 [0x56, 0x03]).setReg 3 0x0C).setFl 0b100) (fun t => t.pc == 0x0C) = true ∧
    steps (((placed 0x14 [0x56, 0x03]).setReg 3 0x0C).setFl 0b001) (fun t => t.pc == 0x16) = true := by decide

/-- A4: the comparison is unsigned. -/
theorem test_cmp_unsigned : steps (((placed 0 [0xA7, 0x00, 0x01]).setReg 0 0x80).setReg 1 0x7F) (fun t => t.fl == 0b010 && t.pc == 3) = true := by
  decide

/-- A8: the old E bit is cleared in the same write. -/
theorem test_cmp_clears_equal :
    steps ((((placed 0 [0xA7, 0x00, 0x01]).setReg 0 0x05).setReg 1 0x06).setFl 0b001) (fun t => t.fl == 0b100) = true := by decide

/-- B3: a source that is also the destination, with a wrap. -/
theorem test_add_same_register_wraps : steps ((placed 0 [0xA0, 0x02, 0x02]).setReg 2 0x90) (fun t => t.reg 2 == 0x20 && t.fl == 0) = true := by
  decide

/-- B6: ADD may move SP. -/
theorem test_add_moves_sp : steps ((placed 0 [0xA0, 0x07, 0x00]).setReg 0 0x0C) (fun t => t.sp == 0x00 && t.reg 0 == 0x0C) = true := by
  decide

/-- M3: the low byte of the product. -/
theorem test_mul_wraps : steps (((placed 0 [0xA2, 0x00, 0x01]).setReg 0 0xFF).setReg 1 0xFF)
    (fun t => t.reg 0 == 0x01 && t.reg 1 == 0xFF && t.pc == 3) = true := by decide

/-- E17: MUL in the last cells reads no operand, and `pc` is not reduced. -/
theorem test_mul_at_the_end : steps (((placed 0xFD [0xA2]).setReg 0 0x02).setReg 1 0x03) (fun t => t.reg 0 == 0x06 && t.pc == 0x100) = true := by
  decide

/-! ### Stops (95_test_vectors.md) -/

/-- E7 and E15: decode comes before operand fetch; the second operand has no cell. -/
theorem test_fetch_stops :
    steps (placed 0xFE [0x03]) (fun t => t.status == .error (.illegalInstruction 0xFE 0x03) && t.pc == 0xFE) = true ∧
    steps (placed 0xFD [0x82, 0x00]) (fun t => t.status == .error (.addressOutOfRange 0xFF) && t.pc == 0xFD) = true := by decide

/-- E5 and E6: address FF is a cell of the 256-cell machine only. -/
theorem test_fetch_at_ff :
    steps (placed 0xFF []) (fun t => t.status == .error (.addressOutOfRange 0xFF)) = true ∧
    steps (placed256 0xFF []) (fun t => t.status == .error (.illegalInstruction 0xFF 0x00)) = true := by decide

/-- K6 and K7: a push from SP = 00 stops with 255 cells and wraps with 256. -/
theorem test_push_at_zero :
    steps (((placed 0 [0x45, 0x00]).setReg 7 0x00).setReg 0 0xAB)
      (fun t => t.status == .error (.addressOutOfRange 0xFF) && t.sp == 0x00 && t.pc == 0) = true ∧
    steps (((placed256 0 [0x45, 0x00]).setReg 7 0x00).setReg 0 0xAB) (fun t => t.sp == 0xFF && t.mem.read 0xFF == 0xAB) = true := by decide

/-- T8: a return address that does not fit 8 bits. -/
theorem test_call_at_fe : steps (placed256 0xFE [0x50, 0x00]) (fun t => t.status == .error (.addressOutOfRange 0x100) && t.sp == 0xF4) = true := by
  decide

/-- X3: no step is enabled in HALTED. -/
theorem test_no_step_when_halted : steps ((placed 0 [0x01]).setStatus .halted) (fun _ => true) = false := by decide

/-- An entry equal to what an unlisted cell reads as is removed. -/
theorem test_memory_canonical : Memory.write [(1, 0x05), (3, 0x07)] 1 0x00 = [(3, 0x07)] ∧
    Memory.write [(1, 0x05), (3, 0x07)] 2 0x09 = [(1, 0x05), (2, 0x09), (3, 0x07)] := by decide

/-! ### Witnesses: for each statement with hypotheses, states and operands that meet them -/

/-- The hypotheses of a step that fetches `{cnt, key}` at `pc`. -/
abbrev Fetches (s : State) (key : Nat) (cnt : Count) (b : Byte) : Prop :=
  s.status = .running ∧ s.memRead s.pc = .ok b ∧ b.toNat = 64 * cnt.val + key

/-- With the first operand byte readable, naming `r`. -/
abbrev FetchesOne (s : State) (key : Nat) (cnt : Count) (b o1 : Byte) (r : RegIdx) : Prop :=
  Fetches s key cnt b ∧ s.memRead (s.pc + 1) = .ok o1 ∧ r.val = o1.toNat % 8

/-- The clauses of a one-operand statement: the operand in the last cell, and no cell for the operand. -/
abbrev OneOperandWitness (key : Nat) (b : Byte) : Prop :=
  FetchesOne (placed 0xFD [b, 0xFA]) key 1 b 0xFA 2 ∧
  Fetches (placed 0xFE [b]) key 1 b ∧ (placed 0xFE [b]).memCells.count ≤ (placed 0xFE [b]).pc + 1

/-- The clauses of a two-operand statement: operands in the last cells, no cell for the second, no cell for the first. -/
abbrev TwoOperandWitness (key : Nat) (b : Byte) : Prop :=
  (FetchesOne (placed 0xFC [b, 0x0A, 0x33]) key 2 b 0x0A 2 ∧ (placed 0xFC [b, 0x0A, 0x33]).memRead (0xFC + 2) = .ok 0x33) ∧
  (FetchesOne (placed 0xFD [b, 0x0A]) key 2 b 0x0A 2 ∧ (placed 0xFD [b, 0x0A]).memCells.count ≤ 0xFD + 2) ∧
  (Fetches (placed 0xFE [b]) key 2 b ∧ (placed 0xFE [b]).memCells.count ≤ 0xFE + 1)

theorem witness_LdiLoadsItsImmediate : TwoOperandWitness 0x02 0x82 := by decide
theorem witness_CmpSetsExactlyOneFlag : TwoOperandWitness 0x27 0xA7 ∧
    ((State.reset.reg 0).toNat = (State.reset.reg 1).toNat) ∧ ((State.reset.reg 7).toNat > (State.reset.reg 1).toNat) ∧
    ((State.reset.reg 0).toNat < (State.reset.reg 7).toNat) := by decide
theorem witness_AddWrapsIntoTheFirstRegister : TwoOperandWitness 0x20 0xA0 := by decide
theorem witness_MulMultipliesRegistersZeroAndOne : Fetches (placed 0xFE [0xA2]) 0x22 2 0xA2 := by decide
theorem witness_HltHaltsAtItsOwnAddress : Fetches (placed 0xFE [0x01]) 0x01 0 0x01 := by decide
theorem witness_PrnAppendsOneRegisterValue : OneOperandWitness 0x07 0x47 := by decide
theorem witness_JmpGoesToTheRegister : OneOperandWitness 0x14 0x54 := by decide

/-- A state with SP at `sp`. -/
def withSp (sp : Byte) : State := State.reset.setReg 7 sp

/-- SP = 00 of the 256-cell machine is the edge of the first clause, SP = 00 of the 255-cell machine that of the stop. -/
theorem witness_PushStoresBelowTheStackPointer : OneOperandWitness 0x05 0x45 ∧
    (withSp 0x01).pushAddr < (withSp 0x01).memCells.count ∧ (withSp 0xFF).pushAddr < (withSp 0xFF).memCells.count ∧
    (withSp 0x00).memCells.count ≤ (withSp 0x00).pushAddr := by decide

theorem witness_PopLoadsTheTopOfTheStack : OneOperandWitness 0x06 0x46 ∧
    (withSp 0xFE).memRead (withSp 0xFE).popAddr = .ok 0x00 ∧ (withSp 0xFF).memCells.count ≤ (withSp 0xFF).popAddr := by decide

theorem witness_CallPushesTheReturnAddress : OneOperandWitness 0x10 0x50 ∧
    (((placed 0xFD []).pc + 2 ≤ 0xFF) ∧ (placed 0xFD []).pushAddr < (placed 0xFD []).memCells.count) ∧
    (0xFF < (placed256 0xFE []).pc + 2) ∧
    (((withSp 0x00).pc + 2 ≤ 0xFF) ∧ (withSp 0x00).memCells.count ≤ (withSp 0x00).pushAddr) := by decide

/-- The third clause is met by the state CALL leaves itself: it has the SP and the cell in question. -/
theorem witness_RetPopsTheProgramCounter :
    Fetches (placed 0xFE [0x11]) 0x11 0 0x11 ∧ (withSp 0xFE).memRead (withSp 0xFE).popAddr = .ok 0x00 ∧
    (withSp 0xFF).memCells.count ≤ (withSp 0xFF).popAddr ∧
    ∃ s t u : State, s.pc + 2 ≤ 0xFF ∧ s.pushAddr < s.memCells.count ∧ exec (.call 1 4) s = .next t ∧ u.sp = t.sp ∧
      u.memRead t.popAddr = t.memRead t.popAddr :=
  ⟨by decide, by decide, by decide, placed 0x10 [0x50, 0x04], _, _, by decide, by decide,
    exec_call 1 4 _ (by decide) (by decide), rfl, rfl⟩

theorem witness_JeqJumpsWhenEqualIsSet : OneOperandWitness 0x15 0x55 ∧
    (State.reset.setFl 0b001).fl.toNat % 2 = 1 ∧ (State.reset.setFl 0b110).fl.toNat % 2 = 0 ∧ (withSp 0).fl = State.reset.fl := by decide
theorem witness_JneJumpsWhenEqualIsClear : OneOperandWitness 0x16 0x56 ∧
    (State.reset.setFl 0b110).fl.toNat % 2 = 0 ∧ (State.reset.setFl 0b111).fl.toNat % 2 = 1 ∧ (withSp 0).fl = State.reset.fl := by decide

theorem witness_FirstByteFixesHandlerAndCount :
    decode [0x82, 0x0A, 0x33] = .ok (.ldi 2 2 0x33) ∧ decode [0x82, 0x01, 0x00] = .ok (.ldi 2 1 0x00) := by decide

theorem witness_AliasesDifferOnlyInTheirAdvance :
    ((0xC7 : Byte).toNat % 64 = (0x47 : Byte).toNat % 64 ∧ (3 : Count).val = (0xC7 : Byte).toNat / 64 ∧
      decode [0x47, 0xFA] = .ok (.prn 1 2)) ∧
    (State.reset.setFl 0b001).fl.toNat % 2 = 1 ∧ (State.reset.setFl 0b100).fl.toNat % 2 = 0 := by decide

theorem witness_UnregisteredKeysAreIllegal : (placed 0xFE [0x3F]).status = .running ∧
    (placed 0xFE [0x3F]).memRead (placed 0xFE [0x3F]).pc = .ok 0x3F ∧ (0x3F : Byte).toNat % 64 ∉ registeredKeys := by decide

theorem witness_StepRunsTheDecodedInstruction : (placed 0xFC [0x82, 0x03, 0x77]).status = .running ∧
    (∀ k, (h : k < 3) → (placed 0xFC [0x82, 0x03, 0x77]).memRead (0xFC + k) = .ok ([0x82, 0x03, 0x77] : List Byte)[k]) ∧
    decode [0x82, 0x03, 0x77] = .ok (.ldi 2 3 0x77) := by decide

theorem witness_PlacedWordIsExecutedNext : decodeTableWord 16 0x0447 = some (.prn 1 4) := by decide

theorem witness_RunsEndOnlyByHltOrStopCondition :
    (∃ t, step (placed 0xFE [0x01]) = .next t ∧ t.status ≠ .running) ∧
    Fetches (placed 0xFE [0xC1]) 0x01 3 0xC1 ∧ Fetches (placed 0xFE []) 0x00 0 0x00 ∧
    (placed 0xFF []).status = .running ∧ (placed 0xFF []).memCells.count ≤ (placed 0xFF []).pc :=
  ⟨⟨_, step_of_decode (i := .hlt 0) rfl (by decide), by decide⟩, by decide⟩

/-- The step of E5: it stops, so it meets the hypotheses of the statements about stops. -/
theorem step_E5 : step (placed 0xFF []) = .next (stoppedWith (.addressOutOfRange 0xFF) (placed 0xFF [])) :=
  step_of_decode_error (e := .noBytes) rfl (by decide)

theorem witness_StopsArePrecise : ∃ s t c, step s = .next t ∧ t.status = .error c := ⟨_, _, _, step_E5, rfl⟩

/-- One state for each check, at the edge of the checks before it: 255 cells but for CALL's return address, where 256 are needed. -/
theorem witness_StopConditionsOfAStep : (∃ s t, step s = .next t) ∧
    FirstFailedCheck (placed 0xFF []) (.addressOutOfRange 0xFF) ∧
    FirstFailedCheck (placed 0xFE [0x03]) (.illegalInstruction 0xFE 0x03) ∧
    FirstFailedCheck (placed 0xFE [0x82]) (.addressOutOfRange 0xFF) ∧
    FirstFailedCheck (placed 0xFD [0x82]) (.addressOutOfRange 0xFF) ∧
    FirstFailedCheck (placed256 0xFE [0x50]) (.addressOutOfRange 0x100) ∧
    FirstFailedCheck ((placed 0xFD [0x50]).setReg 7 0x00) (.addressOutOfRange 0xFF) ∧
    FirstFailedCheck ((placed 0xFD [0x45]).setReg 7 0x00) (.addressOutOfRange 0xFF) ∧
    FirstFailedCheck ((placed 0xFD [0x46]).setReg 7 0xFF) (.addressOutOfRange 0xFF) ∧
    FirstFailedCheck ((placed 0xFE [0x11]).setReg 7 0xFF) (.addressOutOfRange 0xFF) :=
  ⟨⟨_, _, step_E5⟩, .inl (by decide), .inr ⟨0x03, by decide⟩, .inr ⟨0x82, by decide⟩, .inr ⟨0x82, by decide⟩,
    .inr ⟨0x50, by decide⟩, .inr ⟨0x50, by decide⟩, .inr ⟨0x45, by decide⟩, .inr ⟨0x46, by decide⟩, .inr ⟨0x11, by decide⟩⟩

/-- The step of A1 on a reset machine: a CMP that completes. -/
theorem step_cmp : step (placed 0 [0xA7, 0x00, 0x02]) = .next (((placed 0 [0xA7, 0x00, 0x02]).setFl (compareFlags 0 0)).advance 2) :=
  step_of_decode (i := .cmp 2 0 2) rfl (by decide)

theorem witness_OnlyCmpWritesTheFlags : ∃ s t, step s = .next t ∧ t.fl ≠ s.fl := ⟨_, _, step_cmp, by decide⟩

theorem witness_OnlyPrnAppendsToTheOutput : ∃ s t, step s = .next t ∧ t.out ≠ s.out :=
  ⟨placed 0 [0x47, 0x07], _, step_of_decode (i := .prn 1 7) rfl (by decide), by decide⟩

theorem witness_OnlyPushAndCallWriteMemory : ∃ s t, step s = .next t ∧ t.mem ≠ s.mem :=
  ⟨placed 0 [0x45, 0x07], _, (step_of_decode (i := .push 1 7) rfl (by decide)).trans (exec_push 1 7 _ (by decide)), by decide⟩

theorem witness_EveryInstructionKeepsItsFrame : ∃ t, exec (.push 1 0) State.reset = .next t ∧ mayWriteReg (.push 1 0) 0 = false ∧
    storesTo (.push 1 0) State.reset ≠ some 0xF4 ∧ (Instr.push 1 0).opcode ≠ .cmp ∧ (Instr.push 1 0).opcode ≠ .prn ∧
    (Instr.push 1 0).opcode ≠ .hlt :=
  ⟨_, exec_push 1 0 _ (by decide), by decide, by decide, by decide, by decide, by decide⟩

theorem witness_UnreadRegistersHaveNoInfluence : mayReadReg (.jeq 1 3) State.reset 3 = false ∧ mayReadReg (.pop 1 3) State.reset 3 = false ∧
    mayReadReg (.jeq 1 3) (State.reset.setFl 1) 3 = true := by decide

theorem witness_SmallerMemoryRefinesTheLarger : ∃ s t, s.memCells = .cells255 ∧ step s = .next t ∧
    ∀ a, t.status ≠ .error (.addressOutOfRange a) :=
  ⟨_, _, rfl, step_cmp, fun _ h => by simp [placed] at h⟩

/-- The machine in which `step_cmp` runs has the invariant. -/
theorem inv_cmp : (placed 0 [0xA7, 0x00, 0x02]).Inv where
  memCanonical := by decide
  memInBounds := by decide
  pcBound := by decide
  flLegal := .inl rfl
  haltedAtHlt := by simp [placed]
  illegalAtPc := by simp [placed]
  rangeOutside := by simp [placed]
  aluSupported := by simp [placed]
  unloadedUntouched := by simp [placed]

theorem witness_EveryStepKeepsTheInvariant : ∃ s t, s.Inv ∧ step s = .next t := ⟨_, _, inv_cmp, step_cmp⟩

theorem witness_ResetHasTheInvariant : ∃ t, State.resetWith .cells255 [0x01] = .next t := ⟨_, rfl⟩

theorem witness_OutputOfARunOnlyGrows : ∃ s t, Host.Core.run core 1 s = .next t := by
  have h : core.step (placed 0 [0xA7, 0x00, 0x02]) = .next _ := step_cmp
  exact ⟨placed 0 [0xA7, 0x00, 0x02], _, congrArg (fun o => match o with
    | .next s' => Host.Core.run core 0 s'
    | .fault r => .fault r
    | .refused r => .refused r) h⟩

theorem witness_ReadReturnsTheLastByteWritten : 0xFE < State.reset.memCells.count ∧ State.reset.mem.wf ∧
    State.reset.memCells.count ≤ 0xFF := by decide

theorem witness_CanonicalMemoriesThatReadAlikeAreEqual : ∃ m n : Memory, m.wf ∧ n.wf ∧ m ≠ [] ∧ ∀ a, m.read a = n.read a :=
  ⟨[(1, 5), (3, 7)], [(1, 5), (3, 7)], by decide, by decide, by decide, fun _ => rfl⟩

theorem witness_PushThenPopRestores : (3 : RegIdx) ≠ 7 ∧ (withSp 0x01).pushAddr < (withSp 0x01).memCells.count := by decide

/-- A CMP of different registers, then a step that executes PRN; and two FL values with the same E bit. -/
theorem witness_BranchFollowsTheLastCompare :
    (∃ s t u : State, exec (.cmp 2 0 7) s = .next t ∧ RunWithoutCmp t u ∧ u.out ≠ t.out ∧ s.reg 0 ≠ s.reg 7) ∧
    (0b010 : Flags).toNat % 2 = (0b100 : Flags).toNat % 2 :=
  ⟨⟨placed 0 [0xA7, 0x00, 0x07, 0x47, 0x00], _, _, exec_cmp 2 0 7 _,
    .step (.start _) (fun b h => by
      obtain rfl : (0x47 : Byte) = b := Except.ok.inj (ε := StopCondition) h
      decide) (step_of_decode (i := .prn 1 0) rfl (by decide)), by decide, by decide⟩, rfl⟩

theorem witness_EveryRegisterHoldsWhatIsWritten : (0 : RegIdx) ≠ 7 := by decide

theorem witness_StackStopsOnlyAtTheMissingCell :
    (withSp 0x00).pc + 2 ≤ 0xFF ∧ (placed 0xFD []).pc + 2 ≤ 0xFF ∧ (withSp 0x00).memCells = .cells255 ∧ (withSp 0x00).sp = 0x00 ∧
    (withSp 0x01).sp ≠ 0x00 ∧ (withSp 0xFF).sp = 0xFF ∧ (withSp 0xFE).sp ≠ 0xFF ∧ (placed256 0 []).memCells = .cells256 := by decide

/-- A PUSH at F1 whose next address F3 is the cell it stores to: once with an illegal byte, once with HLT, once with PRN, whose
operand is the cell after it. -/
theorem witness_StoredByteIsFetchedByTheNextStep :
    (∃ s t v, s.status = .running ∧ s.pushAddr < s.memCells.count ∧ exec (.push 1 0) s = .next t ∧ t.pc = s.pushAddr ∧
      v = s.decSp.reg 0 ∧ v.toNat % 64 ∉ registeredKeys) ∧
    (∃ s t v, s.status = .running ∧ s.pushAddr < s.memCells.count ∧ exec (.push 1 0) s = .next t ∧ t.pc = s.pushAddr ∧
      v = s.decSp.reg 0 ∧ v.toNat % 64 = 0x01) ∧
    ∃ s t v, s.status = .running ∧ s.pushAddr < s.memCells.count ∧ exec (.push 1 0) s = .next t ∧ t.pc = s.pushAddr ∧
      v = s.decSp.reg 0 ∧ t.memRead (s.pushAddr + 1) = .ok 0x00 ∧ decode [v, 0x00] = .ok (.prn 1 0) :=
  ⟨⟨placed 0xF1 [0x45, 0x00], _, _, rfl, by decide, exec_push 1 0 _ (by decide), by decide, rfl, by decide⟩,
   ⟨(placed 0xF1 [0x45, 0x00]).setReg 0 0x01, _, _, rfl, by decide, exec_push 1 0 _ (by decide), by decide, rfl, by decide⟩,
   ⟨(placed 0xF1 [0x45, 0x00]).setReg 0 0x47, _, _, rfl, by decide, exec_push 1 0 _ (by decide), by decide, rfl, by decide, by decide⟩⟩

theorem witness_AluImplementsExactlyThreeOperations : ∀ r, alu (.other "SUB") 0 0 ≠ .ok r := by simp [alu]

theorem witness_ResetDepositsTheProgram : 1 ≤ ([0x01] : List Byte).length ∧ ([0x01] : List Byte).length ≤ MemCells.cells255.count ∧
    (List.replicate 255 (0x01 : Byte)).length ≤ MemCells.cells255.count :=
  ⟨by decide, by decide, by rw [List.length_replicate]; decide⟩

theorem witness_NoProgramMeansProgramLoadFailure : MemCells.cells255.count < (List.replicate 256 (0x01 : Byte)).length ∧
    MemCells.cells256.count < (List.replicate 257 (0x01 : Byte)).length := by
  rw [List.length_replicate, List.length_replicate]; decide

end Sys2Proof.Tests
end

section
/-!
PROOFS. The family of 10_state.md: what a step does to the invariant, to the flags and to the output, over one step and over a run; which
registers an instruction's outcome depends on; and that every register holds what is written to it.
-/
namespace Sys2Proof.Machine

/-! ### A completed instruction keeps the invariant -/

/-- Both sizes of memory have nearly as many cells as a byte has values (20_memory.md R51). -/
theorem memCells_count_ge (m : MemCells) : 255 ≤ m.count := by
  cases m <;> decide

/-- A completed instruction leaves memory as it was, or wrote one byte into the existing cell at the decremented SP (20_memory.md R54). -/
theorem effect_mem_cases {i : Instr} {s : State} (hs : stopAddr i s = none) :
    (effect i s).mem = s.mem ∨
      ∃ v, s.pushAddr < s.memCells.count ∧ (effect i s).mem = s.mem.write s.pushAddr v := by
  rw [effect_mem]
  cases i with
  | push c r => exact .inr ⟨_, by simpa [stopAddr] using hs, rfl⟩
  | call c r =>
    have hcell : s.pushAddr < s.memCells.count := by
      by_contra hn
      simp only [stopAddr, Nat.le_of_not_lt hn, if_true] at hs
      split at hs <;> simp at hs
    exact .inr ⟨_, hcell, rfl⟩
  | _ => exact .inl rfl

/-- A completed instruction keeps memory canonical. -/
theorem effect_mem_wf {i : Instr} {s : State} (hs : stopAddr i s = none) (h : s.mem.wf) : (effect i s).mem.wf := by
  obtain hm | ⟨v, -, hm⟩ := effect_mem_cases hs <;> rw [hm]
  · exact h
  · exact Memory.wf_write h _ _

/-- A completed instruction lists only cells that exist. -/
theorem effect_mem_inBounds {i : Instr} {s : State} (hs : stopAddr i s = none) (h : ∀ c ∈ s.mem, c.1 < s.memCells.count) :
    ∀ c ∈ (effect i s).mem, c.1 < s.memCells.count := by
  obtain hm | ⟨v, hcell, hm⟩ := effect_mem_cases hs <;> rw [hm]
  · exact h
  · intro c hc
    obtain ha | hc := Memory.mem_write hc
    · exact ha ▸ hcell
    · exact h c hc

/-- Where `pc` can be after an instruction whose bytes were all there: an advance skips at most three bytes (10_state.md R28). -/
theorem effect_pc_le {i : Instr} {s : State} (hf : s.fetch = .ok i) : (effect i s).pc ≤ s.memCells.count + 3 := by
  obtain ⟨-, hread, -⟩ := fetch_ok hf
  have hcnt := i.cnt.isLt
  obtain hp | hp | ⟨b, hp⟩ := effect_pc i s
  · omega
  · omega
  · have := b.isLt
    have := memCells_count_ge s.memCells
    omega

/-- A completed instruction leaves the flags as they were, or is a CMP and leaves exactly one bit set (10_state.md R32, R33). -/
theorem effect_fl_cases (i : Instr) (s : State) :
    (effect i s).fl = s.fl ∨
      i.opcode = .cmp ∧ ((effect i s).fl = 0b001 ∨ (effect i s).fl = 0b010 ∨ (effect i s).fl = 0b100) := by
  rw [effect_fl]
  cases i with
  | cmp c a b => exact .inr ⟨rfl, compareFlags_legal _ _⟩
  | _ => exact .inl rfl

/-- HLT writes the status alone, so `pc` stays at its address (10_state.md R30). -/
theorem effect_of_hlt {i : Instr} (h : i.opcode = .hlt) (s : State) : effect i s = s.setStatus .halted := by
  cases i with
  | hlt c => rfl
  | _ => cases h

/-- The byte at `pc` of a fetched instruction has its handler's key. -/
theorem key_of_fetch_ok {s : State} {i : Instr} (hf : s.fetch = .ok i) :
    ∃ b, s.memRead s.pc = .ok b ∧ b.toNat % 64 = i.opcode.key.toNat := by
  obtain ⟨-, -, b, hb, hk, -⟩ := fetch_ok hf
  exact ⟨b, hb, (keyOf_eq_iff _ _).1 hk⟩

/-- A completed instruction ends HALTED only if it is an HLT, and never in ERROR. -/
theorem effect_status_of_running {i : Instr} {s : State} (hr : s.status = .running) :
    (effect i s).status = .running ∨ i.opcode = .hlt ∧ (effect i s).status = .halted := by
  by_cases hi : i.opcode = .hlt <;> simp [effect_status, hi, hr]

theorem effect_keeps_inv {i : Instr} {s : State} (h : s.Inv) (hr : s.status = .running) (hf : s.fetch = .ok i)
    (hs : stopAddr i s = none) : (effect i s).Inv := by
  have hne : ∀ c, (effect i s).status ≠ .error c := fun c hc => by
    obtain he | ⟨-, he⟩ := effect_status_of_running (i := i) hr <;> simp [he] at hc
  exact
    { memCanonical := effect_mem_wf hs h.memCanonical
      memInBounds := effect_memCells i s ▸ effect_mem_inBounds hs h.memInBounds
      pcBound := effect_memCells i s ▸ effect_pc_le hf
      flLegal := by
        obtain he | ⟨-, he⟩ := effect_fl_cases i s
        · exact he ▸ h.flLegal
        · exact .inr he
      haltedAtHlt := fun hh => by
        obtain he | ⟨hi, -⟩ := effect_status_of_running (i := i) hr
        · simp [he] at hh
        · obtain ⟨b, hb, hk⟩ := key_of_fetch_ok hf
          rw [hi] at hk
          exact ⟨b, by rw [effect_of_hlt hi]; exact hb, hk⟩
      illegalAtPc := fun _ _ hc => absurd hc (hne _)
      rangeOutside := fun _ hc => absurd hc (hne _)
      aluSupported := fun _ => hne _
      unloadedUntouched := fun hc => absurd hc (hne _) }

/-! ### A stop keeps the invariant -/

/-- What a stop condition raised in `s` records (60_exceptions.md R151, R154, R155); the other two conditions are raised by no step
(R152, R153). -/
def StopInfoFits (s : State) : StopCondition → Prop
  | .illegalInstruction p b => p = s.pc ∧ s.memRead s.pc = .ok b ∧ b.toNat % 64 ∉ registeredKeys
  | .addressOutOfRange a => s.memCells.count ≤ a ∨ 0xFF < a
  | .unsupportedALUOperation _ | .programLoadFailure => False

theorem stopInfoFits_of_fetch_error {s : State} {c : StopCondition} (h : s.fetch = .error c) : StopInfoFits s c := by
  obtain ⟨ha, rfl⟩ | ⟨b, hb, hk, rfl⟩ | ⟨b, op, k, -, -, -, -, ha, rfl⟩ := fetch_error h
  · exact .inl ha
  · exact ⟨rfl, hb, fun hm => by
      obtain ⟨op, ho⟩ := (registered_iff b).1 hm
      exact hk op ho⟩
  · exact .inl ha

theorem stoppedWith_keeps_inv {s : State} {c : StopCondition} (h : s.Inv) (hc : StopInfoFits s c) : (stoppedWith c s).Inv where
  memCanonical := h.memCanonical
  memInBounds := h.memInBounds
  pcBound := h.pcBound
  flLegal := h.flLegal
  haltedAtHlt hh := nomatch hh
  illegalAtPc p b he := by
    obtain rfl : c = .illegalInstruction p b := Status.error.inj he
    exact hc
  rangeOutside a he := by
    obtain rfl : c = .addressOutOfRange a := Status.error.inj he
    exact hc
  aluSupported op he := by
    obtain rfl : c = .unsupportedALUOperation op := Status.error.inj he
    exact hc
  unloadedUntouched he := by
    obtain rfl : c = .programLoadFailure := Status.error.inj he
    exact hc.elim

/-- Settles O31: by the three ways a step ends, each of which keeps the invariant. -/
theorem everyStepKeepsTheInvariant : Obligations.EveryStepKeepsTheInvariant := by
  intro s t h hstep
  obtain ⟨hr, ⟨i, hf, hs, rfl⟩ | ⟨i, a, hf, hs, rfl⟩ | ⟨c, hf, rfl⟩⟩ := step_effect hstep
  · exact effect_keeps_inv h hr hf hs
  · exact stoppedWith_keeps_inv h (stopAddr_outside hs)
  · exact stoppedWith_keeps_inv h (stopInfoFits_of_fetch_error hf)

/-! ### Flags and output of one step -/

/-- Settles O25: a stop keeps the flags, and a completed instruction writes them only if its key is CMP's. -/
theorem onlyCmpWritesTheFlags : Obligations.OnlyCmpWritesTheFlags := by
  intro s t hstep
  obtain ⟨-, ⟨i, hf, -, rfl⟩ | ⟨i, a, -, -, rfl⟩ | ⟨c, -, rfl⟩⟩ := step_effect hstep
  · obtain hfl | ⟨hi, hfl⟩ := effect_fl_cases i s
    · exact .inl hfl
    · obtain ⟨b, hb, hk⟩ := key_of_fetch_ok hf
      rw [hi] at hk
      exact .inr ⟨⟨b, hb, hk⟩, hfl⟩
  · exact .inl rfl
  · exact .inl rfl

/-- A fetched PRN names the register its operand byte selects (30_encoding.md R77). -/
theorem selector_of_fetch_prn {s : State} {c : Count} {r : RegIdx} (hf : s.fetch = .ok (.prn c r)) :
    ∃ o1, s.memRead (s.pc + 1) = .ok o1 ∧ r.val = o1.toNat % 8 := by
  obtain ⟨hd, -⟩ := fetch_ok hf
  obtain ⟨b, rest, hb, -, -, ho⟩ := decode_ok_cases hd
  match rest with
  | [] => cases ho
  | o1 :: more =>
    have hr : ridx o1 = r := (Instr.prn.inj (Except.ok.inj ho)).2
    have hlen : 1 < s.fetchBytes.length := by simp [hb]
    have hread := s.memRead_of_fetchBytes hlen
    simp only [hb, List.getElem_cons_succ, List.getElem_cons_zero] at hread
    exact ⟨o1, hread, hr ▸ ridx_val o1⟩

/-- Settles O26: a stop keeps the output, and a completed instruction appends only if it is a PRN. -/
theorem onlyPrnAppendsToTheOutput : Obligations.OnlyPrnAppendsToTheOutput := by
  intro s t hstep
  obtain ⟨-, ⟨i, hf, -, rfl⟩ | ⟨i, a, -, -, rfl⟩ | ⟨c, -, rfl⟩⟩ := step_effect hstep
  · rw [effect_out]
    cases i with
    | prn c r =>
      obtain ⟨b, hb, hk⟩ := key_of_fetch_ok hf
      obtain ⟨o1, ho, hr⟩ := selector_of_fetch_prn hf
      exact .inr ⟨b, o1, hb, hk, ho, r, hr, rfl⟩
    | _ => exact .inl rfl
  · exact .inl rfl
  · exact .inl rfl

/-! ### Output of a run -/

/-- A step appends at most one value to the output. -/
theorem step_out {s t : State} (h : step s = .next t) : ∃ more, t.out = s.out ++ more ∧ more.length ≤ 1 := by
  obtain ho | ⟨_, _, -, -, -, r, -, ho⟩ := onlyPrnAppendsToTheOutput s t h
  · exact ⟨[], by simp [ho], by simp⟩
  · exact ⟨[s.reg r], ho, by simp⟩

/-- A run of `k + 1` steps that ends in a state is a step and a run of `k`, on every machine. -/
theorem run_succ_cases {M : Host.Core} {k : Nat} {s u : M.State} (h : M.run (k + 1) s = .next u) :
    ∃ t, M.step s = .next t ∧ M.run k t = .next u := by
  unfold Host.Core.run at h
  split at h
  next t hs => exact ⟨t, hs, h⟩
  next => cases h
  next => cases h

/-- Settles O33, by induction on the number of steps. -/
theorem outputOfARunOnlyGrows : Obligations.OutputOfARunOnlyGrows := by
  intro k
  induction k with
  | zero =>
    intro s t h
    obtain rfl : s = t := Host.Outcome.next.inj h
    exact ⟨[], by simp, by simp⟩
  | succ k ih =>
    intro s u h
    obtain ⟨t, hstep, hrun⟩ := run_succ_cases (M := core) h
    obtain ⟨more₁, ho₁, hl₁⟩ := step_out hstep
    obtain ⟨more₂, ho₂, hl₂⟩ := ih t u hrun
    exact ⟨more₁ ++ more₂, by rw [ho₂, ho₁, List.append_assoc], by rw [List.length_append]; omega⟩

/-! ### States that agree in everything but one register -/

/-- `t` is `s` but for what register `j` holds. -/
def AgreeBut (j : RegIdx) (s t : State) : Prop := ∀ w, t.setReg j w = s.setReg j w

namespace AgreeBut

variable {j : RegIdx} {s t : State}

theorem of_setReg (s : State) (j : RegIdx) (v : Byte) : AgreeBut j s (s.setReg j v) := fun w => s.setReg_setReg j v w

theorem mem (h : AgreeBut j s t) : t.mem = s.mem := by simpa using congrArg State.mem (h 0)
theorem pc (h : AgreeBut j s t) : t.pc = s.pc := by simpa using congrArg State.pc (h 0)
theorem fl (h : AgreeBut j s t) : t.fl = s.fl := by simpa using congrArg State.fl (h 0)
theorem memCells (h : AgreeBut j s t) : t.memCells = s.memCells := by simpa using congrArg State.memCells (h 0)

theorem reg (h : AgreeBut j s t) {i : RegIdx} (hi : j ≠ i) : t.reg i = s.reg i := by
  have := congrArg (fun u => u.reg i) (h 0)
  simpa only [State.reg_setReg, if_neg hi] using this

theorem equalSet (h : AgreeBut j s t) : t.equalSet = s.equalSet := by
  rw [State.equalSet, State.equalSet, h.fl]

/-- The same write to the same register, `j` itself included, keeps two states alike. -/
theorem setReg (h : AgreeBut j s t) (i : RegIdx) (a : Byte) : AgreeBut j (s.setReg i a) (t.setReg i a) := by
  intro w
  by_cases hi : i = j
  · subst hi
    rw [State.setReg_setReg, State.setReg_setReg, h w]
  · rw [State.setReg_comm _ _ _ hi, State.setReg_comm _ _ _ hi, h w]

theorem advance (h : AgreeBut j s t) (c : Count) : AgreeBut j (s.advance c) (t.advance c) := fun w =>
  congrArg (·.advance c) (h w)
theorem jump (h : AgreeBut j s t) (b : Byte) : AgreeBut j (s.jump b) (t.jump b) := fun w => congrArg (·.jump b) (h w)
theorem setFl (h : AgreeBut j s t) (f : Flags) : AgreeBut j (s.setFl f) (t.setFl f) := fun w => congrArg (·.setFl f) (h w)
theorem setStatus (h : AgreeBut j s t) (v : Status) : AgreeBut j (s.setStatus v) (t.setStatus v) := fun w =>
  congrArg (·.setStatus v) (h w)
theorem setMem (h : AgreeBut j s t) (m : Memory) : AgreeBut j (s.setMem m) (t.setMem m) := fun w => congrArg (·.setMem m) (h w)
theorem emit (h : AgreeBut j s t) (v : Byte) : AgreeBut j (s.emit v) (t.emit v) := fun w => congrArg (·.emit v) (h w)
theorem stoppedWith (h : AgreeBut j s t) (c : StopCondition) :
    AgreeBut j (Machine.stoppedWith c s) (Machine.stoppedWith c t) := h.setStatus (.error c)

/-! The stack pointer and what is addressed by it, where `j` is another register. -/

theorem sp (h : AgreeBut j s t) (hj : j ≠ 7) : t.sp = s.sp := h.reg hj
theorem pushAddr (h : AgreeBut j s t) (hj : j ≠ 7) : t.pushAddr = s.pushAddr := by
  rw [State.pushAddr, State.pushAddr, h.sp hj]
theorem popAddr (h : AgreeBut j s t) (hj : j ≠ 7) : t.popAddr = s.popAddr := by
  rw [State.popAddr, State.popAddr, h.sp hj]
theorem decSp (h : AgreeBut j s t) (hj : j ≠ 7) : AgreeBut j s.decSp t.decSp := by
  rw [State.decSp, State.decSp, h.sp hj]
  exact h.setReg _ _

theorem incSp (h : AgreeBut j s t) (hj : j ≠ 7) : AgreeBut j s.incSp t.incSp := by
  rw [State.incSp, State.incSp, h.sp hj]
  exact h.setReg _ _

end AgreeBut

/-! ### The column "registers read" (10_state.md R25) -/

theorem mayReadReg_jeq (c : Count) (r : RegIdx) (s : State) (j : RegIdx) :
    mayReadReg (.jeq c r) s j = (j == r && s.equalSet) := rfl

theorem mayReadReg_jne (c : Count) (r : RegIdx) (s : State) (j : RegIdx) :
    mayReadReg (.jne c r) s j = (j == r && !s.equalSet) := rfl

/-- What stops a handler does not depend on a register it does not read. -/
theorem stopAddr_of_agreeBut {i : Instr} {j : RegIdx} {s t : State} (h : AgreeBut j s t) (hj : mayReadReg i s j = false) :
    stopAddr i t = stopAddr i s := by
  cases i with
  | push c r | call c r =>
    obtain ⟨h7, -⟩ : j ≠ 7 ∧ j ≠ r := by simpa [mayReadReg] using hj
    simp only [stopAddr, h.memCells, h.pc, h.pushAddr h7]
  | pop c r | ret c =>
    have h7 : j ≠ 7 := by simpa [mayReadReg] using hj
    simp only [stopAddr, h.memCells, h.popAddr h7]
  | _ => rfl

/-- The effect of an instruction does not depend on a register it does not read, but for that register. -/
theorem AgreeBut.effect {i : Instr} {j : RegIdx} {s t : State} (h : AgreeBut j s t) (hj : mayReadReg i s j = false) :
    AgreeBut j (effect i s) (effect i t) := by
  cases i with
  | hlt c => exact h.setStatus _
  | ldi c r v => exact (h.setReg r v).advance c
  | push c r =>
    obtain ⟨h7, hr⟩ : j ≠ 7 ∧ j ≠ r := by simpa [mayReadReg] using hj
    have hv := (h.decSp h7).reg hr
    simp only [Machine.effect, hv, h.mem, h.pushAddr h7]
    exact ((h.decSp h7).setMem _).advance c
  | pop c r =>
    have h7 : j ≠ 7 := by simpa [mayReadReg] using hj
    simp only [Machine.effect, h.mem, h.popAddr h7]
    exact ((h.setReg r _).incSp h7).advance c
  | prn c r =>
    have hr : j ≠ r := by simpa [mayReadReg] using hj
    simp only [Machine.effect, h.reg hr]
    exact (h.emit _).advance c
  | call c r =>
    obtain ⟨h7, hr⟩ : j ≠ 7 ∧ j ≠ r := by simpa [mayReadReg] using hj
    have hv := (h.decSp h7).reg hr
    simp only [Machine.effect, hv, h.mem, h.pc, h.pushAddr h7]
    exact ((h.decSp h7).setMem _).jump _
  | ret c =>
    have h7 : j ≠ 7 := by simpa [mayReadReg] using hj
    simp only [Machine.effect, h.mem, h.popAddr h7]
    exact (h.incSp h7).jump _
  | jmp c r =>
    have hr : j ≠ r := by simpa [mayReadReg] using hj
    simp only [Machine.effect, h.reg hr]
    exact h.jump _
  | jeq c r =>
    simp only [Machine.effect, h.equalSet]
    split
    next he =>
      have hr : j ≠ r := by simpa [mayReadReg_jeq, he] using hj
      exact h.reg hr ▸ h.jump _
    next => exact h.advance c
  | jne c r =>
    simp only [Machine.effect, h.equalSet]
    split
    next => exact h.advance c
    next he =>
      have hr : j ≠ r := by simpa [mayReadReg_jne, he] using hj
      exact h.reg hr ▸ h.jump _
  | cmp c a b =>
    obtain ⟨ha, hb⟩ : j ≠ a ∧ j ≠ b := by simpa [mayReadReg] using hj
    simp only [Machine.effect, h.reg ha, h.reg hb]
    exact (h.setFl _).advance c
  | add c a b =>
    obtain ⟨ha, hb⟩ : j ≠ a ∧ j ≠ b := by simpa [mayReadReg] using hj
    simp only [Machine.effect, h.reg ha, h.reg hb]
    exact (h.setReg a _).advance c
  | mul c =>
    obtain ⟨h0, h1⟩ : j ≠ 0 ∧ j ≠ 1 := by simpa [mayReadReg] using hj
    simp only [Machine.effect, h.reg h0, h.reg h1]
    exact (h.setReg 0 _).advance c

/-- Settles O29: the two runs stop on the same address, or both complete with effects that agree but for register `j`. -/
theorem unreadRegistersHaveNoInfluence : Obligations.UnreadRegistersHaveNoInfluence := by
  intro i s j v hj
  have h := AgreeBut.of_setReg s j v
  refine ⟨_, _, exec_eq i s, exec_eq i (s.setReg j v), ?_⟩
  rw [stopAddr_of_agreeBut h hj]
  cases stopAddr i s with
  | none => exact h.effect hj
  | some a => exact h.stoppedWith _

/-! ### Registers hold what is written to them -/

/-- Settles O43: PRN after LDI reads the immediate from the register written and the old value from every other. -/
theorem everyRegisterHoldsWhatIsWritten : Obligations.EveryRegisterHoldsWhatIsWritten := by
  refine ⟨fun s => rfl, fun c c' i v s => ⟨_, exec_ldi c i v s, ⟨_, exec_prn c' i _, ?_⟩, fun j hj => ⟨_, exec_prn c' j _, ?_⟩⟩⟩
  · simp
  · simp [State.reg_setReg_of_ne s v hj]

end Sys2Proof.Machine
end

section
/-!
PROOFS. The family of 20_memory.md: what a write leaves, canonical memories, which steps write memory, where the stack stops, that stored
bytes are fetched, and that the machine with 255 cells refines the one with 256.
-/
namespace Sys2Proof.Machine

/-! ### A read after a write -/

/-- Settles O34: the laws of a checked access, with a read after a write. -/
theorem readReturnsTheLastByteWritten : Obligations.ReadReturnsTheLastByteWritten := by
  refine ⟨fun s a v ha => ?_, fun s a v ha => ⟨(s.memRead_error a _).2 ⟨ha, rfl⟩, (s.memWrite_error a v _).2 ⟨ha, rfl⟩⟩⟩
  have hread := s.memRead_setMem_write v ha
  exact ⟨s.setMem (s.mem.write a v), (s.memWrite_ok _ a v).2 ⟨ha, rfl⟩, (hread a).trans (if_pos rfl),
    ⟨rfl, fun b hb => (hread b).trans (if_neg hb)⟩, rfl, fun hwf => Memory.wf_write hwf a v⟩

/-! ### Canonical memories -/

/-- Rising addresses make a listing determined by which cells it holds. -/
theorem Memory.eq_of_mem_iff {m n : Memory} (hm : m.wf) (hn : n.wf) (h : ∀ c, c ∈ m ↔ c ∈ n) : m = n := by
  have : Std.Irrefl fun c d : Host.Cell => c.1 < d.1 := ⟨fun _ => Nat.lt_irrefl _⟩
  have : Std.Antisymm fun c d : Host.Cell => c.1 < d.1 := ⟨fun _ _ hcd hdc => absurd hdc (Nat.lt_asymm hcd)⟩
  exact hm.1.eq_of_mem_iff hn.1 h

/-- Settles O35: what a canonical memory reads as says which cells it lists. -/
theorem canonicalMemoriesThatReadAlikeAreEqual : Obligations.CanonicalMemoriesThatReadAlikeAreEqual := by
  intro m n hm hn h
  refine Memory.eq_of_mem_iff hm hn fun c => ?_
  rw [Memory.mem_iff hm, Memory.mem_iff hn, h]

/-! ### Which steps write memory -/

theorem sameMemory_of_mem {s t : State} (hm : t.mem = s.mem) (hc : t.memCells = s.memCells) : SameMemory s t :=
  ⟨hc, State.memRead_congr hm hc⟩

theorem SameMemory.but {s t : State} (h : SameMemory s t) (a : Nat) : SameMemoryBut a s t := ⟨h.1, fun b _ => h.2 b⟩

/-- A write into an existing cell leaves every other cell as it was. -/
theorem sameMemoryBut_of_write {s t : State} {a : Nat} {v : Byte} (ha : a < s.memCells.count) (hm : t.mem = s.mem.write a v)
    (hc : t.memCells = s.memCells) : SameMemoryBut a s t := by
  refine ⟨hc, fun b hb => ?_⟩
  have hread : t.memRead b = (s.setMem (s.mem.write a v)).memRead b :=
    State.memRead_congr (s := s.setMem (s.mem.write a v)) hm hc b
  rw [hread, s.memRead_setMem_write v ha, if_neg hb]

/-- A completed instruction changes at most the cell at the decremented SP (20_memory.md R54). -/
theorem effect_sameMemoryBut {i : Instr} {s : State} (hs : stopAddr i s = none) : SameMemoryBut s.pushAddr s (effect i s) := by
  obtain hm | ⟨v, hcell, hm⟩ := effect_mem_cases hs
  · exact (sameMemory_of_mem hm (effect_memCells i s)).but _
  · exact sameMemoryBut_of_write hcell hm (effect_memCells i s)

/-- A completed instruction is a PUSH or a CALL, or it leaves memory as it was (20_memory.md R54). -/
theorem effect_sameMemory_or_stores (i : Instr) (s : State) :
    SameMemory s (effect i s) ∨ i.opcode = .push ∨ i.opcode = .call := by
  cases i with
  | push c r => exact .inr (.inl rfl)
  | call c r => exact .inr (.inr rfl)
  | _ => exact .inl (sameMemory_of_mem (effect_mem _ s) (effect_memCells _ s))

/-- Settles O27: a stop keeps memory, and a completed instruction writes it only if its key is PUSH's or CALL's. -/
theorem onlyPushAndCallWriteMemory : Obligations.OnlyPushAndCallWriteMemory := by
  intro s t hstep
  have hstop : ∀ c, SameMemory s (stoppedWith c s) := fun _ => sameMemory_of_mem rfl rfl
  obtain ⟨-, ⟨i, hf, hs, rfl⟩ | ⟨i, a, -, -, rfl⟩ | ⟨c, -, rfl⟩⟩ := step_effect hstep
  · refine ⟨effect_sameMemoryBut hs, (effect_sameMemory_or_stores i s).imp_right fun hi => ?_⟩
    obtain ⟨b, hb, hk⟩ := key_of_fetch_ok hf
    exact ⟨b, hb, hi.imp (fun hi => by rw [hk, hi]; rfl) (fun hi => by rw [hk, hi]; rfl)⟩
  · exact ⟨(hstop _).but _, .inl (hstop _)⟩
  · exact ⟨(hstop _).but _, .inl (hstop _)⟩

/-! ### Where the stack stops (20_memory.md R53) -/

/-- The decremented SP is 0xFF exactly from SP = 0x00. -/
theorem State.pushAddr_of_sp_zero {s : State} (h : s.sp = 0x00) : s.pushAddr = 0xFF := by
  rw [State.pushAddr, h]; rfl

theorem State.pushAddr_lt_of_sp_ne_zero {s : State} (h : s.sp ≠ 0x00) : s.pushAddr < 0xFF := by
  rw [s.pushAddr_eq]
  have := s.sp.isLt
  have h0 : s.sp.toNat ≠ 0 := fun h0 => h (BitVec.eq_of_toNat_eq h0)
  omega

theorem State.popAddr_of_sp_ff {s : State} (h : s.sp = 0xFF) : s.popAddr = 0xFF := by
  rw [State.popAddr, h]; rfl

theorem State.popAddr_lt_of_sp_ne_ff {s : State} (h : s.sp ≠ 0xFF) : s.popAddr < 0xFF := by
  rw [s.popAddr_eq]
  have := s.sp.isLt
  have hff : s.sp.toNat ≠ 0xFF := fun hff => h (BitVec.eq_of_toNat_eq hff)
  omega

/-- Where the cell they store to exists, PUSH and CALL complete and decrement SP. -/
theorem push_call_complete (c : Count) (r : RegIdx) {s : State} (hpc : s.pc + 2 ≤ 0xFF) (h : s.pushAddr < s.memCells.count) :
    ∃ t u, exec (.push c r) s = .next t ∧ exec (.call c r) s = .next u ∧ t.sp = s.sp - 1 ∧ u.sp = s.sp - 1 ∧
      t.status = s.status ∧ u.status = s.status :=
  ⟨_, _, exec_push c r s h, exec_call c r s hpc h, by simp, by simp, rfl, rfl⟩

/-- Where the cell they load from exists, POP and RET complete and increment SP, POP R7 aside. -/
theorem pop_ret_complete (c : Count) (r : RegIdx) {s : State} (h : s.popAddr < s.memCells.count) :
    ∃ t u, exec (.pop c r) s = .next t ∧ exec (.ret c) s = .next u ∧ (r ≠ 7 → t.sp = s.sp + 1) ∧ u.sp = s.sp + 1 ∧
      t.status = s.status ∧ u.status = s.status :=
  ⟨_, _, exec_pop c r s h, exec_ret c s h, fun hr => by simp [State.sp_setReg_of_ne s _ hr], by simp, rfl, rfl⟩

/-- Settles O38: address 0xFF is the one cell the smaller machine lacks, and no stack address is larger. -/
theorem stackStopsOnlyAtTheMissingCell : Obligations.StackStopsOnlyAtTheMissingCell := by
  intro c r s hpc
  refine ⟨fun hcells => ?_, fun hcells => ?_⟩
  · have hcount : s.memCells.count = 0xFF := by rw [hcells]; rfl
    refine ⟨fun hsp => ?_, fun hsp => ?_, fun hsp => ?_, fun hsp => ?_⟩
    · have ha := State.pushAddr_of_sp_zero hsp
      have hle : s.memCells.count ≤ s.pushAddr := by omega
      exact ⟨ha ▸ exec_push_stop c r s hle, ha ▸ exec_call_stop_push c r s hpc hle⟩
    · exact push_call_complete c r hpc (hcount ▸ State.pushAddr_lt_of_sp_ne_zero hsp)
    · have ha := State.popAddr_of_sp_ff hsp
      have hle : s.memCells.count ≤ s.popAddr := by omega
      exact ⟨ha ▸ exec_pop_stop c r s hle, ha ▸ exec_ret_stop c s hle⟩
    · exact pop_ret_complete c r (hcount ▸ State.popAddr_lt_of_sp_ne_ff hsp)
  · have hcount : s.memCells.count = 2 ^ 8 := by rw [hcells]; rfl
    obtain ⟨t, u, ht, hu, htsp, husp, hts, hus⟩ := push_call_complete c r hpc (hcount ▸ (s.sp - 1).isLt)
    obtain ⟨v, w, hv, hw, hvsp, hwsp, hvs, hws⟩ := pop_ret_complete c r (s := s) (hcount ▸ s.sp.isLt)
    exact ⟨t, u, v, w, ht, hu, hv, hw, htsp, husp, hvsp, hwsp, hts, hus, hvs, hws⟩

/-! ### What the byte at `pc` makes the next step do -/

/-- A byte whose key has no handler stops the step that fetches it (40_engine.md R93; 60_exceptions.md R151). -/
theorem step_of_unregistered {s : State} {b : Byte} (hr : s.status = .running) (hb : s.memRead s.pc = .ok b)
    (hk : b.toNat % 64 ∉ registeredKeys) : step s = .next (stoppedWith (.illegalInstruction s.pc b) s) := by
  have hno : ∀ op : Opcode, keyOf b ≠ op.key := fun op ho => hk ((registered_iff b).2 ⟨op, ho⟩)
  refine step_of_decode_error (e := .illegalKey b) hr ?_
  rw [State.fetchBytes_of_ok hb, decode_cons_of_no_key b _ hno]

/-- A byte with HLT's key halts the machine where it stands (41_system.md R110). -/
theorem step_of_hlt_key {s : State} {b : Byte} (hr : s.status = .running) (hb : s.memRead s.pc = .ok b)
    (hk : b.toNat % 64 = 0x01) : step s = .next (s.setStatus .halted) := by
  have hkey : keyOf b = Opcode.hlt.key := (keyOf_eq_iff b _).2 hk
  refine step_of_decode (i := .hlt (cntOf b)) hr ?_
  rw [State.fetchBytes_of_ok hb, decode_cons_of_key b _ .hlt hkey]
  rfl

/-- Bytes that decode and stand in the cells from `pc` on are run; the cells after them are not looked at. -/
theorem step_of_bytes {s : State} {bytes : List Byte} {i : Instr} (hr : s.status = .running) (hl : bytes.length ≤ 3)
    (h : ∀ k, (hk : k < bytes.length) → s.memRead (s.pc + k) = .ok bytes[k]) (hd : decode bytes = .ok i) : step s = exec i s := by
  obtain ⟨more, hmore⟩ := State.fetchBytes_of_bytes hl h
  exact step_of_decode hr (hmore ▸ decode_append hd more)

/-- Settles O39: the stored byte is at `pc`, so the step does what that byte, or the bytes from it on, make a step do. -/
theorem storedByteIsFetchedByTheNextStep : Obligations.StoredByteIsFetchedByTheNextStep := by
  rintro c r s t v hr ha hexec hpc rfl
  obtain rfl := Host.Outcome.next.inj ((exec_push c r s ha).symm.trans hexec)
  generalize ht : (s.decSp.setMem (s.mem.write s.pushAddr (s.decSp.reg r))).advance c = t at *
  have hrun : t.status = .running := by rw [← ht]; exact hr
  have hread : t.memRead s.pushAddr = .ok (s.decSp.reg r) := by
    rw [← ht, State.memRead_advance, s.memRead_pushed _ ha, if_pos rfl]
  rw [← hpc] at hread ⊢
  refine ⟨hread, step_of_unregistered hrun hread, fun hk => ⟨_, step_of_hlt_key hrun hread hk, rfl, rfl⟩,
    fun rest i hl hrest hd => step_of_bytes (bytes := s.decSp.reg r :: rest) hrun (Nat.succ_le_succ hl) (fun k hk => ?_) hd⟩
  cases k with
  | zero => exact hread
  | succ k =>
    have := hrest k (Nat.lt_of_succ_lt_succ hk)
    rwa [Nat.add_assoc, Nat.add_comm 1 k] at this

/-! ### The machine with 255 cells and the machine with 256 -/

/-- An address of the smaller machine is one of the larger (20_memory.md R51). -/
theorem memCells_count_le_256 (m : MemCells) : m.count ≤ MemCells.cells256.count := by
  cases m <;> decide

/-- The same state of a machine with 256 cells (20_memory.md R51). -/
def State.enlarged (s : State) : State := { s with memCells := .cells256 }

/-- A read that succeeds answers the same byte on the larger machine. -/
theorem State.memRead_enlarged {s : State} {a : Nat} {b : Byte} (h : s.memRead a = .ok b) : s.enlarged.memRead a = .ok b := by
  obtain ⟨ha, hb⟩ := (s.memRead_ok a b).1 h
  exact (s.enlarged.memRead_ok a b).2 ⟨Nat.lt_of_lt_of_le ha (memCells_count_le_256 _), hb⟩

/-- What the smaller machine runs the larger one runs: its fetch window begins with the smaller one's. -/
theorem step_enlarged_of_fetch_ok {s : State} {i : Instr} (hr : s.status = .running) (hf : s.fetch = .ok i) :
    step s.enlarged = exec i s.enlarged := by
  obtain ⟨hd, -⟩ := fetch_ok hf
  refine step_of_bytes hr ?_ (fun k hk => State.memRead_enlarged (s.memRead_of_fetchBytes hk)) hd
  rw [s.fetchBytes_length]
  exact Nat.min_le_left _ _

/-- The number of cells has no part in what a completed instruction does. -/
theorem effect_enlarged (i : Instr) (s : State) : effect i s.enlarged = (effect i s).enlarged := by
  cases i with
  | jeq c r | jne c r =>
    have he : s.enlarged.equalSet = s.equalSet := rfl
    simp only [effect, he]
    split <;> rfl
  | _ => rfl

/-- A CALL that completes passed both its checks (44_control_transfer.md R126). -/
theorem checks_of_call_completes {c : Count} {r : RegIdx} {s : State} (h : stopAddr (.call c r) s = none) :
    s.pc + 2 ≤ 0xFF ∧ s.pushAddr < s.memCells.count := by
  simp only [stopAddr] at h
  split at h
  next => cases h
  next hret =>
    split at h
    next => cases h
    next ha => exact ⟨Nat.le_of_not_lt hret, Nat.lt_of_not_le ha⟩

/-- What completes on the smaller machine completes on the larger. -/
theorem stopAddr_enlarged {i : Instr} {s : State} (h : stopAddr i s = none) : stopAddr i s.enlarged = none := by
  have hcell : ∀ a, a < s.memCells.count → a < MemCells.cells256.count := fun a ha =>
    Nat.lt_of_lt_of_le ha (memCells_count_le_256 _)
  cases i with
  | push c r =>
    have ha : s.pushAddr < s.memCells.count := by simpa [stopAddr] using h
    exact if_neg (Nat.not_le_of_lt (hcell _ ha))
  | pop c r | ret c =>
    have ha : s.popAddr < s.memCells.count := by simpa [stopAddr] using h
    exact if_neg (Nat.not_le_of_lt (hcell _ ha))
  | call c r =>
    obtain ⟨hret, ha⟩ := checks_of_call_completes h
    exact (if_neg (Nat.not_lt_of_le hret)).trans (if_neg (Nat.not_le_of_lt (hcell _ ha)))
  | _ => rfl

/-- Settles O30: by the three ways a step ends; the condition of a fetch that fails is then IllegalInstruction. -/
theorem smallerMemoryRefinesTheLarger : Obligations.SmallerMemoryRefinesTheLarger := by
  intro s t _ hstep hne
  change step s.enlarged = .next t.enlarged
  obtain ⟨hr, ⟨i, hf, hs, rfl⟩ | ⟨i, a, -, -, rfl⟩ | ⟨c, hf, rfl⟩⟩ := step_effect hstep
  · rw [step_enlarged_of_fetch_ok hr hf, exec_eq, stopAddr_enlarged hs, effect_enlarged]
  · exact absurd rfl (hne a)
  · obtain ⟨-, rfl⟩ | ⟨b, hb, hk, rfl⟩ | ⟨b, op, k, -, -, -, -, -, rfl⟩ := fetch_error hf
    · exact absurd rfl (hne _)
    · refine step_of_unregistered hr (State.memRead_enlarged hb) fun hm => ?_
      obtain ⟨op, ho⟩ := (registered_iff b).1 hm
      exact hk op ho
    · exact absurd rfl (hne _)

end Sys2Proof.Machine
end

section
/-!
PROOFS. The family of 30_encoding.md: that the decoder undoes the encoder, what the first byte fixes, what an alias's count changes, and
which first bytes are rejected.
-/
namespace Sys2Proof

/-! ### The decoder undoes the encoder -/

/-- The operand bytes written for an instruction are read back as its operands (30_encoding.md R72, R76, R77). -/
theorem decodeOperands_operandBytes (i : Instr) : decodeOperands i.opcode i.cnt i.operandBytes = .ok i := by
  cases i <;> simp [decodeOperands, Instr.opcode, Instr.cnt, Instr.operandBytes, withOneOperand, withTwoOperands]

theorem decode_encode (i : Instr) : decode (encode i) = .ok i := by
  rw [encode, decode_cons_of_key _ _ i.opcode (keyOf_firstByte _ _), cntOf_firstByte]
  exact decodeOperands_operandBytes i

/-- Settles O14: the encoding alone decodes to the instruction, and bytes after it are not looked at. -/
theorem decodeOfEncodeIsTheInstruction : Obligations.DecodeOfEncodeIsTheInstruction :=
  fun i rest => decode_append (decode_encode i) rest

/-! ### What the first byte fixes -/

/-- A first byte that decodes fixes the handler by its key and the count by its two high bits (30_encoding.md R70). -/
theorem fields_of_decode_cons {b : Byte} {rest : List Byte} {i : Instr} (h : decode (b :: rest) = .ok i) :
    keyOf b = i.opcode.key ∧ cntOf b = i.cnt := by
  obtain ⟨b', rest', hcons, hkey, hcnt, -⟩ := decode_ok_cases h
  obtain ⟨rfl, rfl⟩ := List.cons.inj hcons
  exact ⟨hkey, hcnt⟩

/-- No two handlers have the same key (30_encoding.md R71, R74). -/
theorem Opcode.key_injective : Function.Injective Opcode.key := fun op op' h =>
  Option.some.inj ((decodeKey_key op).symm.trans (h ▸ decodeKey_key op'))

/-- Settles O15: the two fields of the first byte are the handler's key and the count, and they are all of it. -/
theorem firstByteFixesHandlerAndCount : Obligations.FirstByteFixesHandlerAndCount := by
  constructor
  · intro bytes i h
    obtain ⟨b, rest, rfl, hkey, hcnt, -⟩ := decode_ok_cases h
    have hb : firstByte i.cnt i.opcode = b := hcnt ▸ firstByte_of_fields b i.opcode hkey
    simp [encode, hb]
  · intro b rest rest' i j hi hj
    obtain ⟨hikey, hicnt⟩ := fields_of_decode_cons hi
    obtain ⟨hjkey, hjcnt⟩ := fields_of_decode_cons hj
    exact ⟨Opcode.key_injective (hikey.symm.trans hjkey), hicnt.symm.trans hjcnt⟩

/-! ### Aliases decode alike -/

/-- The same operand bytes under another count give the same instruction under that count (30_encoding.md R79). -/
theorem decodeOperands_withCnt {op : Opcode} {c : Count} {rest : List Byte} {i : Instr} (h : decodeOperands op c rest = .ok i)
    (c' : Count) : decodeOperands op c' rest = .ok (i.withCnt c') := by
  cases op with
  | hlt | ret | mul => cases h; rfl
  | push | pop | prn | call | jmp | jeq | jne =>
    cases rest with
    | nil => cases h
    | cons => cases h; rfl
  | ldi | cmp | add =>
    rcases rest with _ | ⟨o1, _ | ⟨o2, _⟩⟩
    · cases h
    · cases h
    · cases h; rfl

/-- A first byte with the same key decodes the same bytes to the same instruction under its own count (30_encoding.md R79). -/
theorem decode_alias {b b' : Byte} {rest : List Byte} {i : Instr} (hkey : keyOf b' = keyOf b) (h : decode (b :: rest) = .ok i) :
    decode (b' :: rest) = .ok (i.withCnt (cntOf b')) := by
  have hb := (fields_of_decode_cons h).1
  rw [decode_cons_of_key b _ i.opcode hb] at h
  rw [decode_cons_of_key b' _ i.opcode (hkey.trans hb)]
  exact decodeOperands_withCnt h _

/-- Settles O18: the decoder evaluates each word. -/
theorem sampleWordsDecode : Obligations.SampleWordsDecode := by
  unfold Obligations.SampleWordsDecode
  decide

end Sys2Proof

namespace Sys2Proof.Machine

/-! ### What an alias's count changes -/

/-- Two counts give an instruction effects that differ, if at all, in `pc` alone, where both advance (40_engine.md R96). -/
theorem effect_withCnt (n : Count) (i : Instr) (s : State) :
    effect (i.withCnt n) s = effect i s ∨
      (effect i s).pc = s.pc + 1 + i.cnt.val ∧ effect (i.withCnt n) s = (effect i s).setPc (s.pc + 1 + n.val) := by
  cases i with
  | hlt | call | ret | jmp => exact .inl rfl
  | ldi | push | pop | prn | cmp | add | mul => exact .inr ⟨rfl, rfl⟩
  | jeq =>
    simp only [effect, Instr.withCnt]
    split
    · exact .inl rfl
    · exact .inr ⟨rfl, rfl⟩
  | jne =>
    simp only [effect, Instr.withCnt]
    split
    · exact .inr ⟨rfl, rfl⟩
    · exact .inl rfl

/-- The Equal test is the parity of the flags as a number (10_state.md R31). -/
theorem State.equalSet_eq (s : State) : s.equalSet = decide (s.fl.toNat % 2 = 1) := by
  simp [State.equalSet, BitVec.getLsbD, Nat.testBit_zero]

/-- Settles O16: an alias has its key's handler and operands, the same address stops it, and its effect differs by an advance. -/
theorem aliasesDifferOnlyInTheirAdvance : Obligations.AliasesDifferOnlyInTheirAdvance := by
  refine ⟨fun b b' rest i cnt' hkey hcnt h => ?_, fun i c' s => ⟨_, _, exec_eq i s, exec_eq (i.withCnt c') s, ?_⟩,
    fun c c' r s => ⟨rfl, rfl, rfl, rfl, fun hfl => ?_, fun hfl => ?_⟩⟩
  · have hk : keyOf b' = keyOf b := (keyOf_eq_iff b' _).2 (hkey.trans (keyOf_toNat b).symm)
    obtain rfl : cnt' = cntOf b' := Fin.ext (hcnt.trans (cntOf_val b').symm)
    exact decode_alias hk h
  · rw [stopAddr_withCnt]
    cases stopAddr i s with
    | some a => exact ⟨rfl, .inl rfl⟩
    | none =>
      obtain h | ⟨hpc, h⟩ := effect_withCnt c' i s
      · simp [h]
      · simp only [h]
        exact ⟨rfl, .inr ⟨hpc, rfl⟩⟩
  · simp [exec_jeq, State.equalSet_eq, hfl]
  · simp [exec_jne, State.equalSet_eq, hfl]

/-! ### The rejected first bytes -/

/-- A first byte is rejected exactly when its key is not registered (30_encoding.md R81). -/
theorem decode_illegalKey_iff (b : Byte) (rest : List Byte) :
    decode (b :: rest) = .error (.illegalKey b) ↔ b.toNat % 64 ∉ registeredKeys := by
  rw [registered_iff]
  constructor
  · rintro h ⟨op, hop⟩
    rw [decode_cons_of_key b _ op hop] at h
    cases (decodeOperands_error h).2
  · intro h
    exact decode_cons_of_no_key b rest fun op hop => h ⟨op, hop⟩

/-- Settles O17: the rejected bytes are those without a registered key, so their count is a fact about the numbers below 256. -/
theorem unregisteredKeysAreIllegal : Obligations.UnregisteredKeysAreIllegal := by
  refine ⟨decode_illegalKey_iff, ?_, fun s b hr hb hk => step_of_unregistered hr hb hk⟩
  simp only [decode_illegalKey_iff]
  rfl

end Sys2Proof.Machine
end

section
/-!
PROOFS. The family of 40_engine.md: when a step is enabled and what it runs, how a run ends, and the frame of every instruction.
-/
namespace Sys2Proof.Machine

/-! ### When a step is enabled, and what it runs -/

/-- A RUNNING machine always has a next state: what it fetched is run and never refused, or the failed fetch stops it. -/
theorem step_enabled_of_running {s : State} (hr : s.status = .running) : ∃ t, step s = .next t := by
  cases hf : s.fetch with
  | ok i => exact ⟨_, (step_of_fetch_ok hr hf).trans (exec_eq i s)⟩
  | error c => exact ⟨_, step_of_fetch_error hr hf⟩

/-- Settles O21: a step with a next state began RUNNING, and a RUNNING machine has a next state. -/
theorem stepIsEnabledExactlyWhenRunning : Obligations.StepIsEnabledExactlyWhenRunning :=
  fun _ => ⟨fun ⟨_, h⟩ => (step_cases h).1, step_enabled_of_running⟩

/-- Settles O19: the fetch window begins with the bytes, and the decoder looks at no byte after them. -/
theorem stepRunsTheDecodedInstruction : Obligations.StepRunsTheDecodedInstruction :=
  fun _ _ _ hr hl hbytes hd => step_of_bytes hr hl hbytes hd

/-! ### How a run ends -/

/-- A step ends RUNNING, HALTED by a byte with HLT's key, or stopped (40_engine.md R100). -/
theorem step_status_cases {s t : State} (h : step s = .next t) :
    t.status = .running ∨ (t.status = .halted ∧ ∃ b, s.memRead s.pc = .ok b ∧ b.toNat % 64 = 0x01) ∨
      ∃ c, t.status = .error c := by
  obtain ⟨hr, ⟨i, hf, -, rfl⟩ | ⟨i, a, -, -, rfl⟩ | ⟨c, -, rfl⟩⟩ := step_effect h
  · obtain hrun | ⟨hi, hhalt⟩ := effect_status_of_running (i := i) hr
    · exact .inl hrun
    · obtain ⟨b, hb, hk⟩ := key_of_fetch_ok hf
      rw [hi] at hk
      exact .inr (.inl ⟨hhalt, b, hb, hk⟩)
  · exact .inr (.inr ⟨_, rfl⟩)
  · exact .inr (.inr ⟨c, rfl⟩)

/-- Past the last cell there is no byte to fetch (40_engine.md R92). -/
theorem step_of_pc_outside {s : State} (hr : s.status = .running) (hpc : s.memCells.count ≤ s.pc) :
    step s = .next (stoppedWith (.addressOutOfRange s.pc) s) := by
  have hread : s.memRead s.pc = .error (.addressOutOfRange s.pc) := (s.memRead_error _ _).2 ⟨hpc, rfl⟩
  refine step_of_decode_error (e := .noBytes) hr ?_
  rw [State.fetchBytes_of_error hread]
  rfl

/-- Settles O22: by the three statuses a step can end in, and by what the byte at `pc`, if there is one, makes the step do. -/
theorem runsEndOnlyByHltOrStopCondition : Obligations.RunsEndOnlyByHltOrStopCondition :=
  ⟨fun _ _ h hne => (step_status_cases h).resolve_left hne,
    fun _ _ hr hb hk => ⟨_, step_of_hlt_key hr hb hk, rfl⟩,
    fun _ hr hb => step_of_unregistered hr hb (by decide),
    fun _ hr hpc => step_of_pc_outside hr hpc⟩

/-! ### The frame of every instruction -/

/-- A completed instruction changes no cell but the one it stores to (20_memory.md R54). -/
theorem effect_memRead {i : Instr} {s : State} {a : Nat} (hs : stopAddr i s = none) (ha : storesTo i s ≠ some a) :
    (effect i s).memRead a = s.memRead a := by
  have hbut : a ≠ s.pushAddr → (effect i s).memRead a = s.memRead a := (effect_sameMemoryBut hs).2 a
  cases i with
  | push | call => exact hbut fun he => ha (congrArg some he.symm)
  | _ => exact State.memRead_congr (effect_mem _ s) (effect_memCells _ s) a

/-- A completed instruction other than PRN keeps the output (10_state.md R34). -/
theorem effect_out_of_ne_prn {i : Instr} (h : i.opcode ≠ .prn) (s : State) : (effect i s).out = s.out := by
  rw [effect_out]
  cases i with
  | prn => exact absurd rfl h
  | _ => rfl

/-- Settles O28: a completed instruction's effect has the frame, component by component, and a stop keeps all but the status. -/
theorem everyInstructionKeepsItsFrame : Obligations.EveryInstructionKeepsItsFrame := by
  intro i s t h
  obtain ⟨hs, rfl⟩ | ⟨a, -, rfl⟩ := exec_cases h
  · exact ⟨effect_reg i s,
      ⟨effect_memCells i s, fun _ => effect_memRead hs⟩,
      fun hi => (effect_fl_cases i s).resolve_right fun hcmp => hi hcmp.1,
      fun hi => effect_out_of_ne_prn hi s,
      fun hi => .inl ((effect_status i s).trans (if_neg hi))⟩
  · exact ⟨fun _ _ => rfl, ⟨rfl, fun _ _ => rfl⟩, fun _ => rfl, fun _ => rfl, fun _ => .inr ⟨_, rfl⟩⟩

end Sys2Proof.Machine
end

section
/-!
PROOFS. The family of 41_system.md: how a step comes to run a handler that reads no operand byte or one, and what HLT and PRN do.
-/
namespace Sys2Proof

/-- A first byte given as a number is decoded by its key's handler under its count (30_encoding.md R70, R79). -/
theorem decode_cons_of_toNat {b : Byte} {c : Count} {op : Opcode} (h : b.toNat = 64 * c.val + op.key.toNat) (rest : List Byte) :
    decode (b :: rest) = decodeOperands op c rest := by
  have hlt := op.key.isLt
  have hk : keyOf b = op.key := (keyOf_eq_iff b _).2 (by omega)
  have hc : cntOf b = c := Fin.ext (by rw [cntOf_val]; omega)
  rw [decode_cons_of_key b rest op hk, hc]

end Sys2Proof

namespace Sys2Proof.Machine
open Sys2Proof.Claims

/-! ### How a step comes to run a handler -/

/-- A handler of format F0 or F2X: the first byte alone decides (30_encoding.md R72). -/
theorem runsWithoutOperand_of_format (op : Opcode) {mk : Count → Instr}
    (hop : ∀ c rest, decodeOperands op c rest = .ok (mk c)) : RunsWithoutOperand op.key.toNat mk := by
  intro s c b hr hb hbyte
  refine step_of_decode hr ?_
  rw [State.fetchBytes_of_ok hb, decode_cons_of_toNat hbyte, hop]

/-- A handler of format F1: the byte at `pc + 1` is missing, or selects the register (30_encoding.md R72, R77; 40_engine.md R94). -/
theorem runsWithOneOperand_of_format (op : Opcode) {mk : Count → RegIdx → Instr}
    (hop : ∀ c rest, decodeOperands op c rest = withOneOperand rest fun o1 => mk c (ridx o1)) :
    RunsWithOneOperand op.key.toNat mk := by
  intro s c b hr hb hbyte
  have hdecode : decode s.fetchBytes = withOneOperand (s.readCells (s.pc + 1) 2) fun o1 => mk c (ridx o1) := by
    rw [State.fetchBytes_of_ok hb, decode_cons_of_toNat hbyte, hop]
  refine ⟨fun hend => ?_, fun o1 r ho hsel => ?_⟩
  · have hmissing := (s.memRead_error (s.pc + 1) _).2 ⟨hend, rfl⟩
    refine step_of_decode_error (e := .operandMissing 1) hr ?_
    rw [hdecode, State.operands_of_error hmissing]
    rfl
  · obtain rfl : r = ridx o1 := Fin.ext (hsel.trans (ridx_val o1).symm)
    refine step_of_decode hr ?_
    rw [hdecode, State.operands_of_ok ho]
    rfl

/-! ### HLT and PRN -/

/-- Settles O13: HLT writes the status alone, and its format reads no operand byte. -/
theorem hltHaltsAtItsOwnAddress : Obligations.HltHaltsAtItsOwnAddress :=
  ⟨fun c s => ⟨_, exec_hlt c s, rfl, rfl, fun _ _ => rfl, rfl, rfl, sameMemory_of_mem rfl rfl⟩,
    runsWithoutOperand_of_format .hlt fun _ _ => rfl⟩

/-- Settles O4: PRN emits the register's value and advances, and its format reads one selector. -/
theorem prnAppendsOneRegisterValue : Obligations.PrnAppendsOneRegisterValue :=
  ⟨fun c r s => ⟨_, exec_prn c r s, rfl, fun _ _ => rfl, rfl, rfl, rfl, sameMemory_of_mem rfl rfl⟩,
    runsWithOneOperand_of_format .prn fun _ _ => rfl⟩

end Sys2Proof.Machine
end

section
/-!
PROOFS. The family of 42_load.md: how a step comes to run a handler that reads two operand bytes, and what LDI does.
-/
namespace Sys2Proof.Machine
open Sys2Proof.Claims

/-- A handler of format F2: the byte at `pc + 1` or the one at `pc + 2` is missing, or they select the register and are the second
operand (30_encoding.md R72, R76, R77; 40_engine.md R94). -/
theorem runsWithTwoOperands_of_format (op : Opcode) {mk : Count → RegIdx → Byte → Instr}
    (hop : ∀ c rest, decodeOperands op c rest = withTwoOperands rest fun o1 o2 => mk c (ridx o1) o2) :
    RunsWithTwoOperands op.key.toNat mk := by
  intro s c b hr hb hbyte
  have hdecode : decode s.fetchBytes = withTwoOperands (s.readCells (s.pc + 1) 2) fun o1 o2 => mk c (ridx o1) o2 := by
    rw [State.fetchBytes_of_ok hb, decode_cons_of_toNat hbyte, hop]
  refine ⟨fun hend => ?_, fun hfirst hend => ?_, fun o1 o2 r ho1 ho2 hsel => ?_⟩
  · have hmissing := (s.memRead_error (s.pc + 1) _).2 ⟨hend, rfl⟩
    refine step_of_decode_error (e := .operandMissing 1) hr ?_
    rw [hdecode, State.operands_of_error hmissing]
    rfl
  · have ho1 := (s.memRead_ok (s.pc + 1) _).2 ⟨hfirst, rfl⟩
    have hmissing := (s.memRead_error (s.pc + 2) _).2 ⟨hend, rfl⟩
    refine step_of_decode_error (e := .operandMissing 2) hr ?_
    rw [hdecode, State.operands_of_ok ho1, State.second_of_error hmissing]
    rfl
  · obtain rfl : r = ridx o1 := Fin.ext (hsel.trans (ridx_val o1).symm)
    refine step_of_decode hr ?_
    rw [hdecode, State.operands_of_ok ho1, State.second_of_ok ho2]
    rfl

/-- A write to register `r` followed by an advance changes no other register. -/
theorem sameRegsBut_setReg_advance (s : State) (r : RegIdx) (v : Byte) (c : Count) :
    SameRegsBut [r] s ((s.setReg r v).advance c) := fun _ hj =>
  State.reg_setReg_of_ne s v fun he => hj (List.mem_singleton.2 he)

/-- Settles O1: LDI writes the register and advances, and its format reads a selector and the immediate. -/
theorem ldiLoadsItsImmediate : Obligations.LdiLoadsItsImmediate :=
  ⟨fun c r imm s => ⟨_, exec_ldi c r imm s, State.reg_setReg_self s r imm, sameRegsBut_setReg_advance s r imm c, rfl,
      ⟨rfl, rfl, rfl⟩, sameMemory_of_mem rfl rfl⟩,
    runsWithTwoOperands_of_format .ldi fun _ _ => rfl⟩

end Sys2Proof.Machine
end

section
/-!
PROOFS. The family of 43_stack.md: what PUSH and POP do, where they stop, and that POP undoes PUSH.
-/
namespace Sys2Proof.Machine
open Sys2Proof.Claims

/-! ### Registers and the byte pushed -/

/-- A completed instruction changes no register outside a list of those it may write (10_state.md R25). -/
theorem effect_sameRegsBut {i : Instr} {w : List RegIdx} (hw : ∀ j, mayWriteReg i j = true → j ∈ w) (s : State) :
    SameRegsBut w s (effect i s) := fun j hj => effect_reg i s j (Bool.eq_false_iff.2 fun h => hj (hw j h))

/-- PUSH reads its register after the decrement, so R7 gives the address stored to (43_stack.md R120; 92_eei_decisions.md D14). -/
theorem State.reg_decSp_eq_pushAddr (s : State) (r : RegIdx) :
    s.decSp.reg r = if r = 7 then BitVec.ofNat 8 s.pushAddr else s.reg r := by
  rw [State.reg_decSp, State.pushAddr, BitVec.ofNat_toNat, BitVec.setWidth_eq]
  rfl

/-- Incrementing SP goes round from 0xFF to 0x00 (10_state.md R24). -/
theorem State.incSp_sp_toNat (s : State) : s.incSp.sp.toNat = (s.sp.toNat + 1) % 256 := by
  simp [BitVec.toNat_add]

/-! ### PUSH and POP -/

/-- Settles O2: the completed PUSH is its effect, whose write is read back and whose frame is known, and its format reads one selector. -/
theorem pushStoresBelowTheStackPointer : Obligations.PushStoresBelowTheStackPointer := by
  refine ⟨State.pushAddr_eq, fun c r s h => ⟨effect (.push c r) s, exec_push c r s h, ?_, ?_, ?_, ?_, rfl, rfl, rfl, rfl⟩,
    exec_push_stop, runsWithOneOperand_of_format .push fun _ _ => rfl⟩
  · exact congrArg BitVec.toNat s.sp_decSp
  · exact effect_sameRegsBut (fun j hj => by simpa [mayWriteReg] using hj) s
  · rw [← State.reg_decSp_eq_pushAddr]
    exact (s.memRead_pushed _ h _).trans (if_pos rfl)
  · exact sameMemoryBut_of_write h rfl rfl

/-- Settles O3: the completed POP writes the byte read and then increments SP, R7 being both; its format reads one selector. -/
theorem popLoadsTheTopOfTheStack : Obligations.PopLoadsTheTopOfTheStack := by
  refine ⟨State.popAddr_eq, fun c r s v hv => ?_, exec_pop_stop, runsWithOneOperand_of_format .pop fun _ _ => rfl⟩
  obtain ⟨h, rfl⟩ := (s.memRead_ok _ _).1 hv
  refine ⟨effect (.pop c r) s, exec_pop c r s h, fun hr => ⟨?_, ?_⟩, ?_, ?_, rfl, ⟨rfl, rfl, rfl⟩, sameMemory_of_mem rfl rfl⟩
  · simp [effect, spIndex, hr]
  · simp only [effect, State.sp_advance, State.incSp_sp_toNat, s.sp_setReg_of_ne _ hr]
  · rintro rfl
    rw [← s.sp_setReg_spIndex (s.mem.read s.popAddr)]
    exact State.incSp_sp_toNat _
  · exact effect_sameRegsBut (fun j hj => by simpa [mayWriteReg] using hj) s

/-- Settles O36: the POP reads at the decremented SP, where the PUSH stored, and increments it back. -/
theorem pushThenPopRestores : Obligations.PushThenPopRestores := by
  intro c c' a b s ha hb h
  obtain ⟨-, hpush, -, -⟩ := pushStoresBelowTheStackPointer
  obtain ⟨-, hpop, -, -⟩ := popLoadsTheTopOfTheStack
  obtain ⟨t, ht, htsp, htregs, htop, -⟩ := hpush c a s h
  rw [if_neg ha, ← htsp, ← t.popAddr_eq] at htop
  obtain ⟨u, hu, hload, -, huregs, -⟩ := hpop c' b t _ htop
  obtain ⟨hub, husp⟩ := hload hb
  have hsp : u.sp = s.sp := by
    have hlt := s.sp.isLt
    have hdec := s.pushAddr_eq
    exact BitVec.eq_of_toNat_eq (by omega)
  refine ⟨t, u, ht, hu, hub, hsp, fun j hj => ?_⟩
  by_cases h7 : j = 7
  · exact h7 ▸ hsp
  · have hjb : j ≠ b := by simpa using hj
    rw [huregs j (by simp [hjb, h7]), htregs j (by simp [h7])]

end Sys2Proof.Machine
end

section
/-!
PROOFS. The family of 44_control_transfer.md: what CALL, RET, JMP, JEQ and JNE do, where they stop, that RET undoes CALL, and that a
branch follows the last CMP, whatever ran in between.
-/
namespace Sys2Proof.Machine
open Sys2Proof.Claims

/-! ### JMP -/

/-- A write to `pc`, which is all that a jump or an advance is, changes nothing else. -/
theorem setPc_frame (s : State) (p : Nat) :
    SameRegsBut [] s (s.setPc p) ∧ SameFlagsOutputStatus s (s.setPc p) ∧ SameMemory s (s.setPc p) :=
  ⟨fun _ _ => rfl, ⟨rfl, rfl, rfl⟩, sameMemory_of_mem rfl rfl⟩

/-- Settles O7: JMP writes `pc` alone, and its format reads one selector. -/
theorem jmpGoesToTheRegister : Obligations.JmpGoesToTheRegister :=
  ⟨fun c r s => ⟨_, exec_jmp c r s, rfl, setPc_frame s _⟩, runsWithOneOperand_of_format .jmp fun _ _ => rfl⟩

/-! ### JEQ and JNE, by the parity of the flags (10_state.md R31) -/

section
variable (c : Count) (r : RegIdx) {s : State}

theorem exec_jeq_of_odd (h : s.fl.toNat % 2 = 1) : exec (.jeq c r) s = .next (s.jump (s.reg r)) := by
  simp [exec_jeq, State.equalSet_eq, h]

theorem exec_jeq_of_even (h : s.fl.toNat % 2 = 0) : exec (.jeq c r) s = .next (s.advance c) := by
  simp [exec_jeq, State.equalSet_eq, h]

theorem exec_jne_of_odd (h : s.fl.toNat % 2 = 1) : exec (.jne c r) s = .next (s.advance c) := by
  simp [exec_jne, State.equalSet_eq, h]

theorem exec_jne_of_even (h : s.fl.toNat % 2 = 0) : exec (.jne c r) s = .next (s.jump (s.reg r)) := by
  simp [exec_jne, State.equalSet_eq, h]

end

/-- A reset leaves Equal clear (92_eei_decisions.md D10). -/
theorem even_of_reset_fl {s : State} (h : s.fl = State.reset.fl) : s.fl.toNat % 2 = 0 := by
  rw [h]; rfl

/-- Settles O8: by the parity of the flags, which reset leaves even; the format of JEQ reads one selector. -/
theorem jeqJumpsWhenEqualIsSet : Obligations.JeqJumpsWhenEqualIsSet := by
  refine ⟨fun c r s => ?_, runsWithOneOperand_of_format .jeq fun _ _ => rfl,
    fun c r s h => ⟨_, exec_jeq_of_even c r (even_of_reset_fl h), rfl⟩⟩
  obtain h | h := Nat.mod_two_eq_zero_or_one s.fl.toNat
  · exact ⟨_, exec_jeq_of_even c r h, by simp [h], fun _ => rfl, setPc_frame s _⟩
  · exact ⟨_, exec_jeq_of_odd c r h, fun _ => rfl, by simp [h], setPc_frame s _⟩

/-- Settles O9: by the parity of the flags, on which JEQ and JNE split oppositely; the format of JNE reads one selector. -/
theorem jneJumpsWhenEqualIsClear : Obligations.JneJumpsWhenEqualIsClear := by
  refine ⟨fun c r s => ?_, fun c r s => ?_, runsWithOneOperand_of_format .jne fun _ _ => rfl,
    fun c r s h => ⟨_, exec_jne_of_even c r (even_of_reset_fl h), rfl⟩⟩
  · obtain h | h := Nat.mod_two_eq_zero_or_one s.fl.toNat
    · exact ⟨_, exec_jne_of_even c r h, fun _ => rfl, by simp [h], setPc_frame s _⟩
    · exact ⟨_, exec_jne_of_odd c r h, by simp [h], fun _ => rfl, setPc_frame s _⟩
  · obtain h | h := Nat.mod_two_eq_zero_or_one s.fl.toNat
    · exact ⟨_, _, exec_jeq_of_even c r h, exec_jne_of_even c r h, .inr ⟨rfl, rfl⟩⟩
    · exact ⟨_, _, exec_jeq_of_odd c r h, exec_jne_of_odd c r h, .inl ⟨rfl, rfl⟩⟩

/-! ### CALL and RET -/

/-- CALL reads its target after the decrement, so R7 gives the address stored to (44_control_transfer.md R126; 92_eei_decisions.md D14). -/
theorem State.reg_decSp_toNat (s : State) (r : RegIdx) :
    (s.decSp.reg r).toNat = if r = 7 then s.pushAddr else (s.reg r).toNat := by
  rw [State.reg_decSp, apply_ite BitVec.toNat, State.decSp_sp_toNat]
  rfl

/-- A return address that passed its check fits the stack cell (44_control_transfer.md R126; 92_eei_decisions.md D20). -/
theorem returnAddr_toNat {p : Nat} (h : p + 2 ≤ 0xFF) : (BitVec.ofNat 8 (p + 2)).toNat = p + 2 := by
  rw [BitVec.toNat_ofNat, Nat.mod_eq_of_lt (by omega)]

/-- Settles O5: the completed CALL is its effect, whose write is read back and whose frame is known; its format reads one selector. -/
theorem callPushesTheReturnAddress : Obligations.CallPushesTheReturnAddress := by
  refine ⟨fun c r s hret h => ⟨effect (.call c r) s, exec_call c r s hret h, ?_, ?_, ⟨_, ?_, returnAddr_toNat hret⟩, ?_,
      s.reg_decSp_toNat r, rfl, rfl, rfl⟩,
    exec_call_stop_return, exec_call_stop_push, runsWithOneOperand_of_format .call fun _ _ => rfl⟩
  · exact congrArg BitVec.toNat s.sp_decSp
  · exact effect_sameRegsBut (fun j hj => by simpa [mayWriteReg] using hj) s
  · exact (s.memRead_pushed _ h _).trans (if_pos rfl)
  · exact sameMemoryBut_of_write h rfl rfl

/-- A completed RET jumps to the byte at SP, increments SP and leaves all else as it was (44_control_transfer.md R127). -/
theorem exec_ret_of_memRead (c : Count) {s : State} {v : Byte} (hv : s.memRead s.popAddr = .ok v) :
    exec (.ret c) s = .next (s.incSp.jump v) := by
  obtain ⟨h, rfl⟩ := (s.memRead_ok _ _).1 hv
  exact exec_ret c s h

/-- Incrementing the decremented SP gives SP back (10_state.md R24). -/
theorem State.incSp_sp_of_decremented {s u : State} (h : u.popAddr = s.pushAddr) : u.incSp.sp = s.sp := by
  have hu : u.sp = s.sp - 1 := BitVec.eq_of_toNat_eq h
  rw [State.sp_incSp, hu, BitVec.sub_add_cancel]

/-- Settles O6: RET jumps to the byte at SP, which after a CALL is the return address at the decremented SP. -/
theorem retPopsTheProgramCounter : Obligations.RetPopsTheProgramCounter := by
  refine ⟨fun c s v hv => ?_, exec_ret_stop, fun c c' r s t u hret h hcall hsp htop => ?_,
    runsWithoutOperand_of_format .ret fun _ _ => rfl⟩
  · exact ⟨_, exec_ret_of_memRead c hv, rfl, s.incSp_sp_toNat,
      effect_sameRegsBut (i := .ret c) (fun j hj => by simpa [mayWriteReg] using hj) s, ⟨rfl, rfl, rfl⟩, sameMemory_of_mem rfl rfl⟩
  · obtain ⟨hcompletes, -⟩ := callPushesTheReturnAddress
    obtain ⟨t', ht', htsp, -, ⟨ret, hstored, hval⟩, -⟩ := hcompletes c r s hret h
    obtain rfl : t = t' := Host.Outcome.next.inj (hcall.symm.trans ht')
    have hu : u.popAddr = t.popAddr := congrArg BitVec.toNat hsp
    rw [← htsp, ← t.popAddr_eq, ← htop, ← hu] at hstored
    exact ⟨_, exec_ret_of_memRead c' hstored, hval, State.incSp_sp_of_decremented (hu.trans htsp)⟩

/-! ### A branch follows the last CMP (44_control_transfer.md R131) -/

/-- Equal is set by a CMP exactly when the bytes are equal. -/
theorem compareFlags_mod_two (a b : Byte) : (compareFlags a b).toNat % 2 = if a = b then 1 else 0 := by
  unfold compareFlags
  split
  · rfl
  · split <;> rfl

/-- Steps that execute no CMP keep the flags, however many they are. -/
theorem fl_of_runWithoutCmp {t u : State} (h : RunWithoutCmp t u) : u.fl = t.fl := by
  induction h with
  | start => rfl
  | step _ hkey hstep ih =>
    obtain hfl | ⟨⟨b, hb, hk⟩, -⟩ := onlyCmpWritesTheFlags _ _ hstep
    · exact hfl.trans ih
    · exact absurd hk (hkey b hb)

/-- From flags with the same Equal bit an instruction completes alike, but for the flags themselves (44_control_transfer.md R131). -/
theorem effect_setFl {s : State} {f : Flags} (h : (s.setFl f).equalSet = s.equalSet) (i : Instr) :
    (effect i (s.setFl f)).setFl (effect i s).fl = effect i s := by
  cases i with
  | jeq c r | jne c r =>
    simp only [effect, h]
    split <;> rfl
  | _ => rfl

/-- Settles O37: the flags a CMP leaves persist, their parity says whether it compared equals, and only Equal is ever read. -/
theorem branchFollowsTheLastCompare : Obligations.BranchFollowsTheLastCompare := by
  refine ⟨fun c c' a b r s t u hcmp hrun => ?_, fun i s f hpar => ⟨_, _, exec_eq i s, exec_eq i (s.setFl f), ?_⟩⟩
  · have hfl := fl_of_runWithoutCmp hrun
    obtain rfl := Host.Outcome.next.inj ((exec_cmp c a b s).symm.trans hcmp)
    have hpar : u.fl.toNat % 2 = if s.reg a = s.reg b then 1 else 0 := by
      rw [hfl]; exact compareFlags_mod_two _ _
    refine ⟨hfl, ?_⟩
    by_cases hab : s.reg a = s.reg b
    · rw [if_pos hab] at hpar
      exact ⟨⟨_, exec_jeq_of_odd c' r hpar, fun _ => rfl, absurd hab⟩, ⟨_, exec_jne_of_odd c' r hpar, absurd hab, fun _ => rfl⟩⟩
    · rw [if_neg hab] at hpar
      exact ⟨⟨_, exec_jeq_of_even c' r hpar, fun h => absurd h hab, fun _ => rfl⟩,
        ⟨_, exec_jne_of_even c' r hpar, fun _ => rfl, fun h => absurd h hab⟩⟩
  · have hequal : (s.setFl f).equalSet = s.equalSet := by
      rw [State.equalSet_eq, State.equalSet_eq, State.setFl_fl, hpar]
    rw [stopAddr_setFl]
    cases stopAddr i s with
    | none => exact effect_setFl hequal i
    | some a => rfl

end Sys2Proof.Machine
end

section
/-!
PROOFS. The family of 45_alu.md: which operations the ALU answers, and what CMP, ADD and MUL do.
-/
namespace Sys2Proof.Machine
open Sys2Proof.Claims

/-! ### What the ALU answers -/

/-- Settles O40: by the operation; each of the three has an answer, and any other name is raised. -/
theorem aluImplementsExactlyThreeOperations : Obligations.AluImplementsExactlyThreeOperations := by
  intro op a b
  cases op with
  | cmp | add | mul => exact ⟨iff_of_true ⟨_, rfl⟩ (by decide), fun h => absurd rfl (h _)⟩
  | other n =>
    have hraise : alu (.other n) a b = .error (.unsupportedALUOperation (.other n)) := rfl
    exact ⟨by simp [hraise], fun _ => hraise⟩

/-! ### CMP, by the order of the two bytes (45_alu.md R136; 92_eei_decisions.md D9) -/

section
variable {a b : Byte}

theorem compareFlags_of_eq (h : a.toNat = b.toNat) : compareFlags a b = 0b001 := if_pos (BitVec.eq_of_toNat_eq h)

theorem compareFlags_of_gt (h : a.toNat > b.toNat) : compareFlags a b = 0b010 := by
  have hne : a ≠ b := fun he => absurd (congrArg BitVec.toNat he) (Nat.ne_of_gt h)
  exact (if_neg hne).trans (if_pos h)

theorem compareFlags_of_lt (h : a.toNat < b.toNat) : compareFlags a b = 0b100 := by
  have hne : a ≠ b := fun he => absurd (congrArg BitVec.toNat he) (Nat.ne_of_lt h)
  exact (if_neg hne).trans (if_neg (Nat.lt_asymm h))

end

/-- A handler of format F2 whose second operand byte selects a register too (30_encoding.md R72, R77). -/
theorem runsWithTwoOperands_of_selectors (op : Opcode) {mk : Count → RegIdx → RegIdx → Instr}
    (hop : ∀ c rest, decodeOperands op c rest = withTwoOperands rest fun o1 o2 => mk c (ridx o1) (ridx o2)) :
    RunsWithTwoOperands op.key.toNat fun c a o2 => mk c a (Fin.ofNat 8 o2.toNat) :=
  runsWithTwoOperands_of_format op fun c rest => by simp only [hop, ridx_eq_ofNat]

/-- Settles O10: CMP writes the flags and advances, the flags by the order of the bytes; its format reads two selectors. -/
theorem cmpSetsExactlyOneFlag : Obligations.CmpSetsExactlyOneFlag :=
  ⟨fun c a b s => ⟨_, exec_cmp c a b s, compareFlags_of_eq, compareFlags_of_gt, compareFlags_of_lt, fun _ _ => rfl, rfl, rfl, rfl,
      sameMemory_of_mem rfl rfl⟩,
    runsWithTwoOperands_of_selectors .cmp fun _ _ => rfl⟩

/-! ### ADD and MUL -/

/-- A write to register `r` followed by an advance changes `r` and `pc` alone. -/
theorem setReg_advance_frame (s : State) (r : RegIdx) (v : Byte) (c : Count) :
    SameRegsBut [r] s ((s.setReg r v).advance c) ∧ ((s.setReg r v).advance c).pc = s.pc + 1 + c.val ∧
      SameFlagsOutputStatus s ((s.setReg r v).advance c) ∧ SameMemory s ((s.setReg r v).advance c) :=
  ⟨sameRegsBut_setReg_advance s r v c, rfl, ⟨rfl, rfl, rfl⟩, sameMemory_of_mem rfl rfl⟩

/-- Settles O11: ADD writes the wrapped sum of the old bytes and advances, and its format reads two selectors. -/
theorem addWrapsIntoTheFirstRegister : Obligations.AddWrapsIntoTheFirstRegister :=
  ⟨fun c a b s => ⟨_, exec_add c a b s, by simp [BitVec.toNat_add], setReg_advance_frame s a _ c⟩,
    runsWithTwoOperands_of_selectors .add fun _ _ => rfl⟩

/-- Settles O12: MUL writes the wrapped product of the old bytes and advances, and its format reads no operand byte. -/
theorem mulMultipliesRegistersZeroAndOne : Obligations.MulMultipliesRegistersZeroAndOne :=
  ⟨fun c s => ⟨_, exec_mul c s, by simp [BitVec.toNat_mul], setReg_advance_frame s 0 _ c⟩,
    runsWithoutOperand_of_format .mul fun _ _ => rfl⟩

end Sys2Proof.Machine
end

section
/-!
PROOFS. The family of 60_exceptions.md: that a stop changes the status alone, and that a step stops exactly on the first of its checks
that fails, in the order of R157.
-/
namespace Sys2Proof
open Sys2Proof.Machine

/-! ### The keys of the handlers that read operand bytes (30_encoding.md R72, R74) -/

theorem Opcode.key_mem_operandKeys_iff (op : Opcode) : op.key.toNat ∈ oneOperandKeys ++ twoOperandKeys ↔ 0 < op.reads := by
  cases op <;> decide

theorem Opcode.key_mem_twoOperandKeys_iff (op : Opcode) : op.key.toNat ∈ twoOperandKeys ↔ 1 < op.reads := by
  cases op <;> decide

theorem Opcode.reads_le_two (op : Opcode) : op.reads ≤ 2 := by
  cases op <;> decide

/-- A byte whose key is among some registered ones has a handler, whose key is among them. -/
theorem exists_opcode_of_mem {b : Byte} {keys : List Nat} (hsub : keys ⊆ registeredKeys) (h : b.toNat % 64 ∈ keys) :
    ∃ op : Opcode, keyOf b = op.key ∧ op.key.toNat ∈ keys := by
  obtain ⟨op, hop⟩ := (registered_iff b).1 (hsub h)
  exact ⟨op, hop, (keyOf_eq_iff b _).1 hop ▸ h⟩

end Sys2Proof

namespace Sys2Proof.Machine

/-! ### What a stopped step was stopped by -/

/-- An instruction that completes does not stop the machine. -/
theorem effect_status_ne_error {i : Instr} {s : State} {c : StopCondition} (hr : s.status = .running) :
    (effect i s).status ≠ .error c := by
  obtain he | ⟨-, he⟩ := effect_status_of_running (i := i) hr <;> simp [he]

/-- A step that ends in ERROR left all but the status as it was, and its fetch failed or a check of its handler did
(60_exceptions.md R156). -/
theorem step_stop_cases {s t : State} {c : StopCondition} (h : step s = .next t) (hc : t.status = .error c) :
    s.status = .running ∧ t = stoppedWith c s ∧
      (s.fetch = .error c ∨ ∃ i a, s.fetch = .ok i ∧ stopAddr i s = some a ∧ c = .addressOutOfRange a) := by
  obtain ⟨hr, ⟨i, -, -, rfl⟩ | ⟨i, a, hf, hs, rfl⟩ | ⟨c', hf, rfl⟩⟩ := step_effect h
  · exact absurd hc (effect_status_ne_error hr)
  · obtain rfl := Status.error.inj hc
    exact ⟨hr, rfl, .inr ⟨i, a, hf, hs, rfl⟩⟩
  · obtain rfl := Status.error.inj hc
    exact ⟨hr, rfl, .inl hf⟩

/-- Settles O23: an instruction that completes does not stop, and what stops is raised on the state the step began in. -/
theorem stopsArePrecise : Obligations.StopsArePrecise := fun _ _ _ h hc => (step_stop_cases h hc).2.1

/-- A step that stops records what its condition records, so it is one of the two conditions a step can raise (60_exceptions.md R151 to
R154). -/
theorem stopInfoFits_of_step {s t : State} {c : StopCondition} (h : step s = .next t) (hc : t.status = .error c) :
    StopInfoFits s c := by
  obtain ⟨-, -, hf | ⟨i, a, -, hs, rfl⟩⟩ := step_stop_cases h hc
  · exact stopInfoFits_of_fetch_error hf
  · exact stopAddr_outside hs

/-! ### Which check of a handler fails (60_exceptions.md R157) -/

/-- The checks of the handlers: CALL's return address and then its stack cell, and the stack cells of PUSH, POP and RET. -/
theorem stopAddr_eq_some_iff (i : Instr) (s : State) (a : Nat) :
    stopAddr i s = some a ↔
      (i.opcode = .call ∧ 0xFF < s.pc + 2 ∧ a = s.pc + 2) ∨
      (i.opcode = .call ∧ s.pc + 2 ≤ 0xFF ∧ s.memCells.count ≤ s.pushAddr ∧ a = s.pushAddr) ∨
      (i.opcode = .push ∧ s.memCells.count ≤ s.pushAddr ∧ a = s.pushAddr) ∨
      (i.opcode = .pop ∧ s.memCells.count ≤ s.popAddr ∧ a = s.popAddr) ∨
      (i.opcode = .ret ∧ s.memCells.count ≤ s.popAddr ∧ a = s.popAddr) := by
  cases i with
  | push | pop | ret => simp [stopAddr, Instr.opcode, eq_comm]
  | call =>
    by_cases hret : 0xFF < s.pc + 2
    · simp [stopAddr, Instr.opcode, hret, Nat.not_le_of_lt hret, eq_comm]
    · simp [stopAddr, Instr.opcode, hret, Nat.le_of_not_lt hret, eq_comm]
  | _ => simp [stopAddr, Instr.opcode]

/-! ### A step that stops reports the first check that fails -/

theorem firstFailedCheck_of_fetch_error {s : State} {c : StopCondition} (h : s.fetch = .error c) : FirstFailedCheck s c := by
  obtain hpc | ⟨b, hb, hk, rfl⟩ | ⟨b, op, k, hb, hkey, hk, hin, hout, rfl⟩ := fetch_error h
  · exact .inl hpc
  · exact .inr ⟨b, hb, .inl ⟨fun hm => ((registered_iff b).1 hm).elim hk, rfl⟩⟩
  · rw [keyOf_eq_iff] at hkey
    obtain rfl | rfl : k = 0 ∨ k = 1 := by have := op.reads_le_two; omega
    · exact .inr ⟨b, hb, .inr (.inl ⟨hkey ▸ op.key_mem_operandKeys_iff.2 hk, hout, rfl⟩)⟩
    · exact .inr ⟨b, hb, .inr (.inr (.inl ⟨hkey ▸ op.key_mem_twoOperandKeys_iff.2 hk, hin, hout, rfl⟩))⟩

theorem firstFailedCheck_of_stopAddr {s : State} {i : Instr} {a : Nat} (hf : s.fetch = .ok i) (hs : stopAddr i s = some a) :
    FirstFailedCheck s (.addressOutOfRange a) := by
  obtain ⟨b, hb, hk⟩ := key_of_fetch_ok hf
  obtain ⟨-, hin, -⟩ := fetch_ok hf
  refine .inr ⟨b, hb, .inr (.inr (.inr ?_))⟩
  obtain ⟨hi, hret, rfl⟩ | ⟨hi, hret, ha, rfl⟩ | ⟨hi, ha, rfl⟩ | ⟨hi, ha, rfl⟩ | ⟨hi, ha, rfl⟩ :=
    (stopAddr_eq_some_iff i s a).1 hs <;> rw [hi] at hk hin
  · exact .inl ⟨hk, hin, hret, rfl⟩
  · exact .inr (.inl ⟨hk, hin, hret, ha, rfl⟩)
  · exact .inr (.inr (.inl ⟨hk, hin, ha, rfl⟩))
  · exact .inr (.inr (.inr (.inl ⟨hk, hin, ha, rfl⟩)))
  · exact .inr (.inr (.inr (.inr ⟨hk, ha, rfl⟩)))

/-! ### The first check that fails stops the step -/

/-- The window's first byte picks the handler, which decodes the operand bytes that exist, two at most. -/
theorem State.decode_fetchBytes {s : State} {b : Byte} {op : Opcode} (hb : s.memRead s.pc = .ok b) (hkey : keyOf b = op.key) :
    ∃ rest, rest.length = min 2 (s.memCells.count - (s.pc + 1)) ∧ decode s.fetchBytes = decodeOperands op (cntOf b) rest :=
  ⟨s.readCells (s.pc + 1) 2, by simp [State.readCells_eq], by rw [State.fetchBytes_of_ok hb, decode_cons_of_key b _ op hkey]⟩

/-- The first operand byte that the handler reads and no cell holds stops the step (40_engine.md R94). -/
theorem step_of_operand_missing {s : State} {b : Byte} {op : Opcode} {k : Nat} (hr : s.status = .running)
    (hb : s.memRead s.pc = .ok b) (hkey : keyOf b = op.key) (hk : k < op.reads) (hin : s.pc + k < s.memCells.count)
    (hout : s.memCells.count ≤ s.pc + (k + 1)) : step s = .next (stoppedWith (.addressOutOfRange (s.pc + (k + 1))) s) := by
  obtain ⟨rest, hlen, hdecode⟩ := State.decode_fetchBytes hb hkey
  have hrest : rest.length = k := by have := op.reads_le_two; omega
  cases hd : decodeOperands op (cntOf b) rest with
  | ok i => exact absurd (decodeOperands_ok_length hd) (by omega)
  | error e =>
    obtain ⟨-, rfl⟩ := decodeOperands_error hd
    rw [step_of_decode_error hr (hdecode.trans hd), hrest]
    rfl

/-- Where every operand byte exists, the address on which the handler stops stops the step (40_engine.md R98). -/
theorem step_of_handler_stop {s : State} {b : Byte} {op : Opcode} {a : Nat} (hr : s.status = .running)
    (hb : s.memRead s.pc = .ok b) (hkey : b.toNat % 64 = op.key.toNat) (hin : s.pc + op.reads < s.memCells.count)
    (hs : ∀ i : Instr, i.opcode = op → stopAddr i s = some a) : step s = .next (stoppedWith (.addressOutOfRange a) s) := by
  obtain ⟨rest, hlen, hdecode⟩ := State.decode_fetchBytes hb ((keyOf_eq_iff b _).2 hkey)
  cases hd : decodeOperands op (cntOf b) rest with
  | ok i => rw [step_of_decode hr (hdecode.trans hd), exec_eq, hs i (decodeOperands_fields hd).1]
  | error e =>
    have hreads := op.reads_le_two
    exact absurd (decodeOperands_error hd).1 (by omega)

theorem step_of_firstFailedCheck {s : State} {c : StopCondition} (hr : s.status = .running) (h : FirstFailedCheck s c) :
    step s = .next (stoppedWith c s) := by
  obtain ⟨hpc, rfl⟩ | ⟨b, hb, ⟨hk, rfl⟩ | ⟨hk, hout, rfl⟩ | ⟨hk, hin, hout, rfl⟩ | ⟨hk, hin, hret, rfl⟩ |
    ⟨hk, hin, hret, ha, rfl⟩ | ⟨hk, hin, ha, rfl⟩ | ⟨hk, hin, ha, rfl⟩ | ⟨hk, ha, rfl⟩⟩ := h
  · exact step_of_pc_outside hr hpc
  · exact step_of_unregistered hr hb hk
  · obtain ⟨op, hop, hmem⟩ := exists_opcode_of_mem (by decide) hk
    exact step_of_operand_missing hr hb hop (op.key_mem_operandKeys_iff.1 hmem) ((s.memRead_ok _ _).1 hb).1 hout
  · obtain ⟨op, hop, hmem⟩ := exists_opcode_of_mem (by decide) hk
    exact step_of_operand_missing hr hb hop (op.key_mem_twoOperandKeys_iff.1 hmem) hin hout
  · exact step_of_handler_stop (op := .call) hr hb hk hin fun i hi =>
      (stopAddr_eq_some_iff i s _).2 (.inl ⟨hi, hret, rfl⟩)
  · exact step_of_handler_stop (op := .call) hr hb hk hin fun i hi =>
      (stopAddr_eq_some_iff i s _).2 (.inr (.inl ⟨hi, hret, ha, rfl⟩))
  · exact step_of_handler_stop (op := .push) hr hb hk hin fun i hi =>
      (stopAddr_eq_some_iff i s _).2 (.inr (.inr (.inl ⟨hi, ha, rfl⟩)))
  · exact step_of_handler_stop (op := .pop) hr hb hk hin fun i hi =>
      (stopAddr_eq_some_iff i s _).2 (.inr (.inr (.inr (.inl ⟨hi, ha, rfl⟩))))
  · exact step_of_handler_stop (op := .ret) hr hb hk ((s.memRead_ok _ _).1 hb).1 fun i hi =>
      (stopAddr_eq_some_iff i s _).2 (.inr (.inr (.inr (.inr ⟨hi, ha, rfl⟩))))

/-- Settles O24: a failed fetch and a handler's failed check are first failed checks, each of which stops the step; the condition fits
what a step can record. -/
theorem stopConditionsOfAStep : Obligations.StopConditionsOfAStep := by
  refine ⟨fun s c => ⟨?_, fun ⟨hr, h⟩ => ⟨_, step_of_firstFailedCheck hr h, rfl⟩⟩,
    fun s t op hstep => ⟨stopInfoFits_of_step hstep, stopInfoFits_of_step hstep⟩⟩
  rintro ⟨t, hstep, hc⟩
  obtain ⟨hr, -, hf | ⟨i, a, hf, hs, rfl⟩⟩ := step_stop_cases hstep hc
  · exact ⟨hr, firstFailedCheck_of_fetch_error hf⟩
  · exact ⟨hr, firstFailedCheck_of_stopAddr hf hs⟩

end Sys2Proof.Machine
end

section
/-!
PROOFS. The family of 70_reset_and_hazards.md: what reset answers with no program, with one that fits and with one that does not, every
component of the machine it answers with, and that the invariant holds there.
-/
namespace Sys2Proof.Machine

/-! ### The machine before the deposit -/

/-- The machine of either size right after reset with no program (70_reset_and_hazards.md R181, R185). -/
def State.unloaded (cells : MemCells) : State := { State.reset with memCells := cells }

section
variable (cells : MemCells)

@[simp] theorem State.unloaded_status : (State.unloaded cells).status = .error .programLoadFailure := rfl
@[simp] theorem State.unloaded_mem : (State.unloaded cells).mem = [] := rfl
@[simp] theorem State.unloaded_memCells : (State.unloaded cells).memCells = cells := rfl
@[simp] theorem State.sp_unloaded : (State.unloaded cells).sp = 0xF4 := rfl

/-- R0 to R6 are zero at reset, in the one register file that both sizes share (92_eei_decisions.md D11). -/
theorem State.reg_unloaded {j : RegIdx} (hj : j ≠ 7) : (State.unloaded cells).reg j = 0x00 := by
  have hreset : ∀ j : RegIdx, j ≠ 7 → State.reset.reg j = 0x00 := by decide
  exact hreset j hj

/-- Memory is zero at reset (70_reset_and_hazards.md R182). -/
theorem State.memRead_unloaded {a : Nat} (ha : a < cells.count) : (State.unloaded cells).memRead a = .ok 0x00 :=
  (State.memRead_ok _ _ _).2 ⟨ha, rfl⟩

end

/-! ### What reset answers -/

theorem State.resetWith_nil (cells : MemCells) : State.resetWith cells [] = .next (State.unloaded cells) := rfl

theorem State.resetWith_of_too_long {cells : MemCells} {program : List Byte} (h : cells.count < program.length) :
    State.resetWith cells program = .refused (.programTooLong program.length) :=
  if_pos h

theorem State.resetWith_of_fits {cells : MemCells} {program : List Byte} (hne : program ≠ []) (hfit : program.length ≤ cells.count) :
    State.resetWith cells program = .next ((State.unloaded cells).deposit resetPc program) := by
  rw [State.resetWith, if_neg (Nat.not_lt.2 hfit), if_neg (by simpa using hne)]
  rfl

/-- All that a reset with a next state can have done: no byte was deposited, or a program that fits was. -/
theorem State.resetWith_cases {cells : MemCells} {program : List Byte} {t : State} (h : State.resetWith cells program = .next t) :
    (program = [] ∧ t = State.unloaded cells) ∨
    (program ≠ [] ∧ program.length ≤ cells.count ∧ t = (State.unloaded cells).deposit resetPc program) := by
  by_cases hlong : cells.count < program.length
  · simp [State.resetWith_of_too_long hlong] at h
  · have hfit := Nat.le_of_not_lt hlong
    by_cases hne : program = []
    · subst hne
      exact .inl ⟨rfl, (Host.Outcome.next.inj h).symm⟩
    · rw [State.resetWith_of_fits hne hfit] at h
      exact .inr ⟨hne, hfit, (Host.Outcome.next.inj h).symm⟩

/-- A byte of the program is in the cell of its index, and past its end memory is as reset left it (70_reset_and_hazards.md R183). -/
theorem State.memRead_deposit_unloaded {cells : MemCells} {program : List Byte} (hfit : program.length ≤ cells.count) {a : Nat}
    (ha : a < cells.count) : ((State.unloaded cells).deposit resetPc program).memRead a = .ok (program.getD a 0x00) := by
  rw [State.memRead_deposit _ _ _ (by simpa [resetPc] using hfit)]
  by_cases hin : a < program.length
  · simp [resetPc, hin]
  · simp [resetPc, hin, State.memRead_unloaded cells ha]

/-- Settles O41: reset deposits the program over the unloaded machine, whose other components the deposit keeps. -/
theorem resetDepositsTheProgram : Obligations.ResetDepositsTheProgram := by
  intro cells program hone hfit
  have hne : program ≠ [] := List.ne_nil_of_length_pos hone
  exact ⟨_, State.resetWith_of_fits hne hfit, rfl, rfl, State.sp_unloaded cells, fun _ hj => State.reg_unloaded cells hj,
    rfl, rfl, rfl, fun _ ha => State.memRead_deposit_unloaded hfit ha⟩

/-- A machine that is not RUNNING takes no step (10_state.md R36). -/
theorem step_ne_next_of_not_running {s : State} (hs : s.status ≠ .running) (u : State) : step s ≠ .next u :=
  fun h => hs (step_cases h).1

/-- Settles O42: with no bytes reset answers the unloaded machine, which is not RUNNING, and it refuses a program longer than memory. -/
theorem noProgramMeansProgramLoadFailure : Obligations.NoProgramMeansProgramLoadFailure := by
  refine ⟨State.resetWith_nil .cells255, fun cells => ?_, fun _ _ hlong => State.resetWith_of_too_long hlong⟩
  exact ⟨_, State.resetWith_nil cells, rfl, rfl, State.sp_unloaded cells, fun _ hj => State.reg_unloaded cells hj, rfl, rfl,
    fun _ ha => State.memRead_unloaded cells ha, step_ne_next_of_not_running (by simp)⟩

/-! ### The invariant at reset -/

theorem State.unloaded_inv (cells : MemCells) : (State.unloaded cells).Inv where
  memCanonical := Memory.wf_nil
  memInBounds := by simp
  pcBound := Nat.zero_le _
  flLegal := .inl rfl
  haltedAtHlt := by simp
  illegalAtPc := by simp
  rangeOutside := by simp
  aluSupported := by simp
  unloadedUntouched _ := ⟨rfl, rfl, rfl⟩

/-- A deposit into existing cells keeps the invariant: the machine it leaves is RUNNING, so no stop is recorded. -/
theorem deposit_keeps_inv {s : State} (h : s.Inv) {base : Nat} {bytes : List Byte} (hfit : base + bytes.length ≤ s.memCells.count) :
    (s.deposit base bytes).Inv where
  memCanonical := Memory.wf_writeBytes h.memCanonical base bytes
  memInBounds c hc := by
    obtain ⟨-, hlt⟩ | hold := Memory.mem_writeBytes hc
    · exact Nat.lt_of_lt_of_le hlt hfit
    · exact h.memInBounds c hold
  pcBound := by simp only [State.deposit_pc, State.deposit_memCells]; omega
  flLegal := h.flLegal
  haltedAtHlt := by simp
  illegalAtPc := by simp
  rangeOutside := by simp
  aluSupported := by simp
  unloadedUntouched := by simp

/-- Settles O32: the unloaded machine has the invariant, and a deposit that fits keeps it. -/
theorem resetHasTheInvariant : Obligations.ResetHasTheInvariant := by
  refine ⟨State.unloaded_inv .cells255, fun cells program t hreset => ?_⟩
  obtain ⟨-, rfl⟩ | ⟨-, hfit, rfl⟩ := State.resetWith_cases hreset
  · exact State.unloaded_inv cells
  · exact deposit_keeps_inv (State.unloaded_inv cells) (by simpa [resetPc] using hfit)

end Sys2Proof.Machine
end

section
/-!
PROOFS. The model's own interface for placing an instruction (log 2, log 3): a word of the opcode table that `withFetchWord` places is
what the next step runs.
-/
namespace Sys2Proof

/-- A word of the opcode table is read as an instruction exactly when its three bytes decode to it. -/
theorem decodeTableWord_eq_some_iff (nbits w : Nat) (i : Instr) :
    decodeTableWord nbits w = some i ↔ decode (tableBytes nbits w) = .ok i := by
  unfold decodeTableWord
  cases decode (tableBytes nbits w) with
  | ok j => simp
  | error e => simp

end Sys2Proof

namespace Sys2Proof.Machine

/-- A step of the state that a word is placed in runs the instruction read from the word: the machine is RUNNING and its fetch window is
the word's three bytes. -/
theorem step_withFetchWord (s : State) {nbits w : Nat} {i : Instr} (h : decodeTableWord nbits w = some i) :
    step (s.withFetchWord nbits w) = exec i (s.withFetchWord nbits w) := by
  have hr : (s.withFetchWord nbits w).status = .running := s.deposit_status _ _
  have hd : decode (s.withFetchWord nbits w).fetchBytes = .ok i := by
    rw [State.fetchBytes_withFetchWord]
    exact (decodeTableWord_eq_some_iff nbits w i).1 h
  exact step_of_decode hr hd

/-- Settles O20: the placed word is what the next step fetches, and placing it is a deposit, which keeps the registers, FL and the
output. -/
theorem placedWordIsExecutedNext : Obligations.PlacedWordIsExecutedNext :=
  fun s _ _ _ h => ⟨step_withFetchWord s h, fun j _ => s.reg_deposit _ _ j, s.deposit_fl _ _, s.deposit_out _ _⟩

end Sys2Proof.Machine
end
